-- ==== Sys2Proof/Word.lean ====
section
/-! DEFINITION. The two widths of the block (00_scope.md R10, R11): an 8-bit datum or register, and a 16-bit
address or program counter. All values are unsigned bit vectors; the arithmetic on them is in Machine/Alu.lean. -/

namespace Sys2Proof

/-- An 8-bit value, the spec's u8 (R11; width `XLEN`). -/
abbrev Byte := BitVec 8

/-- A 16-bit value, the spec's u16 (R11; widths `PCLEN` and `ALEN`). -/
abbrev Word := BitVec 16

end Sys2Proof
end

