-- ==== Sys2Proof/Config.lean ====
section
/-! DEFINITION. The implementation parameters of 00_scope.md R10, each with the value this hardware takes, and the
two open parameters (92_eei_decisions.md D9) for which the model names a value for `State.reset`. -/

namespace Sys2Proof.Config

/-- `MEM_SIZE`: number of bytes of Memory; 0xFFFF has none (R10; decision D2, log entry 4). -/
def memSize : Nat := 65535

/-- `ORIGIN`: where `load` places the first byte of the image (R10). -/
def origin : Word := 0x8000#16

/-- `RESET_VECTOR`: address of the little-endian word `reset` copies into the program counter (R10). -/
def resetVector : Word := 0xFFFC#16

/-- `MAX_IMAGE` = `MEM_SIZE` - `ORIGIN` = 32767 (R10; decision D8, log entry 10). -/
def maxImage : Nat := memSize - origin.toNat

/-- `OPC_TERMINATE` (R10). -/
def opcTerminate : Byte := 0x00#8
/-- `OPC_LDA_IMM` (R10). -/
def opcLdaImm : Byte := 0xA9#8
/-- `OPC_LDA_ZP` (R10). -/
def opcLdaZp : Byte := 0xA5#8
/-- `OPC_LDA_INDX` (R10). -/
def opcLdaIndX : Byte := 0xA1#8
/-- `OPC_TAX` (R10). -/
def opcTax : Byte := 0xAA#8
/-- `OPC_INX` (R10). -/
def opcInx : Byte := 0xE8#8
/-- `OPC_LDA_ZPX` (R10). PRESUMED: general knowledge of the family, decision D4, log entry 6. -/
def opcLdaZpX : Byte := 0xB5#8
/-- `OPC_LDA_ABS` (R10). PRESUMED: decision D4, log entry 6. -/
def opcLdaAbs : Byte := 0xAD#8
/-- `OPC_LDA_ABSX` (R10). PRESUMED: decision D4, log entry 6. -/
def opcLdaAbsX : Byte := 0xBD#8
/-- `OPC_LDA_ABSY` (R10). PRESUMED: decision D4, log entry 6. -/
def opcLdaAbsY : Byte := 0xB9#8
/-- `OPC_LDA_INDY` (R10). PRESUMED: decision D4, log entry 6. -/
def opcLdaIndY : Byte := 0xB1#8

/-- `Z_BIT`: the bit of the status register that holds Zero (R10, R26). PRESUMED: decision D3, log entry 5. -/
def zBit : Nat := 1

/-- `N_BIT`: the bit of the status register that holds Negative (R10, R26). PRESUMED: decision D3, log entry 5. -/
def nBit : Nat := 7

/-- `MEM_INIT`: what a byte of memory reads as while the memory lists no value for it. The spec leaves it OPEN
(R34, D9). DESIGN CHOICE 0x00 everywhere, unsafe: log entry 1. -/
def memInit (_addr : Nat) : Byte := 0x00#8

/-- `Y_INIT`: the value of index-Y at power-on, which nothing ever changes. The spec leaves it OPEN (R23, R34, D9).
DESIGN CHOICE 0x00 for `State.reset` alone, unsafe: log entry 2. -/
def yInit : Byte := 0x00#8

/-- The most steps one run can take from any state (40_fetch_decode_execute.md R119). -/
def runBound : Nat := 65536

end Sys2Proof.Config
end

