-- ==== Sys2Proof/Syntax.lean ====
section
/-! DEFINITION. The instructions: one constructor per row of spec/opcode_table.json (30_encoding.md R86). -/

namespace Sys2Proof

/-- What the decoder answers for an opcode byte. The opcode byte as a whole selects operation, register and
addressing mode, and "The decoder does not read the operand bytes: they are read by the resolver inside the
handler" (30_encoding.md R84); so a constructor carries no operand. An opcode together with its operand bytes, as
they stand in an image, is a `Code`. Log entry 11. -/
inductive Instr where
  /-- 0x00, terminate (R190). -/
  | brk
  /-- 0xA1, load-accumulator, Indirect-X (R172). -/
  | ldaIndX
  /-- 0xA5, load-accumulator, ZeroPage (R167). -/
  | ldaZp
  /-- 0xA9, load-accumulator, Immediate (R166). -/
  | ldaImm
  /-- 0xAA, transfer-accumulator-to-X (R180). -/
  | tax
  /-- 0xAD, load-accumulator, Absolute (R169). -/
  | ldaAbs
  /-- 0xB1, load-accumulator, Indirect-Y (R173). -/
  | ldaIndY
  /-- 0xB5, load-accumulator, ZeroPage-indexed-by-X (R168). -/
  | ldaZpX
  /-- 0xB9, load-accumulator, Absolute-indexed-by-Y (R171). -/
  | ldaAbsY
  /-- 0xBD, load-accumulator, Absolute-indexed-by-X (R170). -/
  | ldaAbsX
  /-- 0xE8, increment-X (R181). -/
  | inx
  deriving DecidableEq, Repr

/-- One instruction as it stands in an image: an opcode and the operand bytes after it, in ascending address order
(R80 to R83). `op8` of format F2 is the one operand byte; `lo`, `hi` of format F3 are the two. -/
structure Code where
  op       : Instr
  operands : List Byte
  deriving DecidableEq, Repr

end Sys2Proof
end

