-- ==== Sys2Proof/Machine/Mode.lean ====
section
/-! DEFINITION. The closed set of ten addressing-mode tags (41_addressing_modes.md R130), the operand bytes of each
(R141), and the one mode each opcode declares (30_encoding.md R86). -/

namespace Sys2Proof.Machine

/-- The ten mode tags of R130. -/
inductive Mode where
  | immediate | zeroPage | zeroPageX | zeroPageY | absolute | absoluteX | absoluteY | indirectX | indirectY | none
  deriving DecidableEq, Repr

/-- Operand bytes per mode (R141). -/
def Mode.operandBytes : Mode → Nat
  | .immediate => 1
  | .zeroPage => 1
  | .zeroPageX => 1
  | .zeroPageY => 1
  | .absolute => 2
  | .absoluteX => 2
  | .absoluteY => 2
  | .indirectX => 1
  | .indirectY => 1
  | .none => 0

/-- The mode tag each opcode declares: "it is a static property of the opcode, not of the runtime value" (R130).
No opcode declares ZeroPageY (R134; 90_conflicts.md C1, log entry 13). -/
def modeOf : Instr → Mode
  | .brk => .none
  | .ldaIndX => .indirectX
  | .ldaZp => .zeroPage
  | .ldaImm => .immediate
  | .tax => .none
  | .ldaAbs => .absolute
  | .ldaIndY => .indirectY
  | .ldaZpX => .zeroPageX
  | .ldaAbsY => .absoluteY
  | .ldaAbsX => .absoluteX
  | .inx => .none

/-- The number of operand bytes after the opcode byte: 0, 1 or 2 by format (R81 to R83, R85). -/
def operandCount (i : Instr) : Nat := (modeOf i).operandBytes

/-- Instruction length in bytes: one opcode byte and the operand bytes of the declared mode (R85). -/
def lengthOf (i : Instr) : Nat := 1 + operandCount i

end Sys2Proof.Machine
end

