-- ==== Sys2Proof/WellFormed.lean ====
section
/-! DEFINITION. When an instruction with its operand bytes is well formed. The opcode byte fixes the length (30_encoding.md
R85), so the only check is that the operand bytes are as many as the opcode's mode takes. Every value of every
operand byte is allowed: there is no reserved operand encoding (R84, R88). -/

namespace Sys2Proof

/-- The operand bytes are as many as the format of the opcode has (R81, R82, R83, R85). -/
abbrev Code.WellFormed (c : Code) : Prop := c.operands.length = Machine.operandCount c.op

end Sys2Proof
end

