-- ==== Sys2Proof/Decode.lean ====
section
/-! DEFINITION. The decoder (30_encoding.md R86, R88, R93; dispatch by equality on all eight bits, 40_fetch_decode_execute.md
R113) and, after it, the encoder. -/

namespace Sys2Proof

/-- Why a byte sequence is no instruction. -/
inductive DecodeError where
  /-- One of the 245 opcode bytes with no handler (R88). -/
  | unimplemented (opcode : Byte)
  /-- The bytes end before the operand bytes of the opcode do. -/
  | truncated
  deriving DecidableEq, Repr

/-- The opcode map (R86), in the order of the dispatch of R110; `none` is "unimplemented" (R88). Total: every one
of the 256 values is answered (R93). -/
def decodeOpcode (b : Byte) : Option Instr :=
  if b = Config.opcTerminate then some .brk
  else if b = Config.opcLdaImm then some .ldaImm
  else if b = Config.opcLdaZp then some .ldaZp
  else if b = Config.opcLdaZpX then some .ldaZpX
  else if b = Config.opcLdaAbs then some .ldaAbs
  else if b = Config.opcLdaAbsX then some .ldaAbsX
  else if b = Config.opcLdaAbsY then some .ldaAbsY
  else if b = Config.opcLdaIndX then some .ldaIndX
  else if b = Config.opcLdaIndY then some .ldaIndY
  else if b = Config.opcTax then some .tax
  else if b = Config.opcInx then some .inx
  else none

/-- The first `n` bytes of a sequence and the rest; `none` where there are fewer. -/
def takeBytes : Nat → List Byte → Option (List Byte × List Byte)
  | 0, bs => some ([], bs)
  | _ + 1, [] => none
  | n + 1, b :: bs => (takeBytes n bs).map fun r => (b :: r.1, r.2)

/-- Read one instruction with its operand bytes from the front of a byte sequence (R80, R85). Total on any bytes;
a refusal says why. -/
def decode : List Byte → Except DecodeError (Code × List Byte)
  | [] => .error .truncated
  | b :: bs =>
    match decodeOpcode b with
    | none => .error (.unimplemented b)
    | some i =>
      match takeBytes (Machine.operandCount i) bs with
      | none => .error .truncated
      | some r => .ok (⟨i, r.1⟩, r.2)

/-- Read a whole byte sequence as instructions, one after another; `fuel` bounds how many (the number of bytes is
always enough, since each instruction has at least one byte). -/
def decodeAll : Nat → List Byte → Except DecodeError (List Code)
  | _, [] => .ok []
  | 0, _ :: _ => .error .truncated
  | fuel + 1, bs =>
    match decode bs with
    | .error e => .error e
    | .ok r =>
      match decodeAll fuel r.2 with
      | .error e => .error e
      | .ok cs => .ok (r.1 :: cs)

/-- The opcode byte of an instruction (R86). -/
def opcodeOf : Instr → Byte
  | .brk => Config.opcTerminate
  | .ldaIndX => Config.opcLdaIndX
  | .ldaZp => Config.opcLdaZp
  | .ldaImm => Config.opcLdaImm
  | .tax => Config.opcTax
  | .ldaAbs => Config.opcLdaAbs
  | .ldaIndY => Config.opcLdaIndY
  | .ldaZpX => Config.opcLdaZpX
  | .ldaAbsY => Config.opcLdaAbsY
  | .ldaAbsX => Config.opcLdaAbsX
  | .inx => Config.opcInx

/-- The bytes of an instruction, at ascending addresses: the opcode byte, then the operand bytes unchanged
(R80, R93). -/
def encode (c : Code) : List Byte := opcodeOf c.op :: c.operands

/-- The bytes of a program: its instructions one after another, with no header ("the raw byte stream is the format",
70_reset_and_hazards.md R234). -/
def encodeAll : List Code → List Byte
  | [] => []
  | c :: cs => encode c ++ encodeAll cs

/-- Byte `k` of an instruction given as a number whose bit 0 is the least significant bit of the first byte;
bits at and above `nbits` are zero. -/
def tableByte (nbits w k : Nat) : Byte := BitVec.ofNat 8 ((w % 2 ^ nbits) / 2 ^ (8 * k))

/-- The longest instruction has three bytes (R80): the bytes of an instruction given as a number. -/
def tableBytes (nbits w : Nat) : List Byte := [tableByte nbits w 0, tableByte nbits w 1, tableByte nbits w 2]

/-- The instruction the decoder reads from an instruction whose bits are `w`, numbered as spec/opcode_table.json
numbers them; operand bits the table does not number are zero. -/
def decodeTableWord (nbits w : Nat) : Option Instr :=
  match decode (tableBytes nbits w) with
  | .error _ => none
  | .ok r => some r.1.op

end Sys2Proof
end

