-- ==== Sys2Proof/Machine/Alu.lean ====
section
/-! DEFINITION. The arithmetic and the byte-order helpers (00_scope.md R11, R13; 42_alu_and_flags.md R150, R151).
The ALU has no other operation (R155). -/

namespace Sys2Proof.Machine

/-- 8-bit addition modulo 256; the carry is discarded (R150). -/
def add8 (a b : Byte) : Byte := a + b

/-- 16-bit addition modulo 65536; the carry is discarded (R151). -/
def add16 (a b : Word) : Word := a + b

/-- Bit 7 of a byte (R13). -/
def bit7 (v : Byte) : Bool := v.getLsbD 7

/-- `zext_16`: a byte as a word with zero high byte (R12). -/
def zext16 (b : Byte) : Word := b.setWidth 16

/-- The word `(hi, lo)` = `hi * 256 + lo` (R11). -/
def joinBytes (hi lo : Byte) : Word := hi ++ lo

/-- Bits 7:0 of a word. -/
def lowByte (w : Word) : Byte := w.setWidth 8

/-- Bits 15:8 of a word. -/
def highByte (w : Word) : Byte := (w >>> 8).setWidth 8

end Sys2Proof.Machine
end

