-- ==== Sys2Proof/Machine/State.lean ====
section
/-! DEFINITION. The whole state of the block (10_state.md R20), the fatal conditions (60_exceptions.md R200), the run state
with its halt cause (10_state.md R29), and the state after reset (R33). -/

namespace Sys2Proof.Machine

/-- The four fatal conditions of R200, each with the information it records. Inside a step a fatal condition is
TAKEN as R205 describes its entry: the step answers a NEXT state whose `run` is Halted and whose `cause` holds the
condition (log entry 7). So no step of this machine answers `Host.Outcome.fault`. -/
inductive Fault where
  /-- The fetched opcode byte has no handler; raised by the dispatcher in a step (R191, R201). Safe: the run stops,
  as the spec says. -/
  | unimplementedInstruction (opcode : Byte)
  /-- `resolve(None)` was called; raised by the resolver (R140, R202), unreachable with the fixed opcode table.
  Safe. -/
  | unsupportedAddressingMode (mode : Mode)
  /-- An access at or above `MEM_SIZE`; raised by `MemRead` and `MemWrite`, in a step or in a host access (R51, R52,
  R203). Safe. -/
  | addressRange (addr : Word)
  /-- The image is longer than `MAX_IMAGE`; raised by the host operation `load` alone, never by a step (R204,
  R235). Safe. -/
  | oversizedLoad (len : Nat)
  deriving DecidableEq, Repr

/-- Why a step has no meaning. -/
inductive Refusal where
  /-- An instruction of the opcode table that has no meaning yet; raised by an arm of `exec`. Safe. No arm raises
  it: every instruction has its meaning. -/
  | notModelled (mnemonic : String)
  deriving DecidableEq, Repr

/-- The two run states (R29, R218). -/
inductive RunState where
  | running
  | halted
  deriving DecidableEq, Repr

/-- The halt cause (R29): none since power-on or while a run goes on, the terminate opcode, or a fatal condition. -/
inductive Cause where
  | none
  | terminated
  | fault (f : Fault)
  deriving DecidableEq, Repr

/-- Memory (R30): the bytes that differ from what an unlisted address reads as (`Config.memInit`), by strictly
rising address. -/
abbrev Memory := List Host.Cell

/-- "The whole state of the block" (R20). -/
structure State where
  /-- The accumulator `A` (R21). -/
  a     : Byte
  /-- Index-X (R22). -/
  x     : Byte
  /-- Index-Y (R23). -/
  y     : Byte
  /-- The status register `P` (R26): Zero, Negative and six reserved bits. -/
  p     : Byte
  /-- The program counter (R25). -/
  pc    : Word
  /-- The run state (R29). -/
  run   : RunState
  /-- The halt cause (R29). -/
  cause : Cause
  /-- Memory (R30). -/
  mem   : Memory
  deriving DecidableEq, Repr

/-- What a step answers. -/
abbrev Result := Host.Outcome State Fault Refusal

/-- The machine at power-on (70_reset_and_hazards.md R233): the register values and the memory contents are
parameters the spec leaves open (D9); Halted with cause None (D14). -/
def State.powerOn (aInit xInit yInit pInit : Byte) (pcInit : Word) (memInit : Memory) : State :=
  { a := aInit, x := xInit, y := yInit, p := pInit, pc := pcInit, run := .halted, cause := .none, mem := memInit }

/-- The machine right after `reset()` in a memory nobody has written (R33, R230): `A`, `X` and `P` are zero, `Y` keeps
its power-on value (log entry 2), `pc` is the little-endian word at the reset vector, whose two bytes are unlisted
(log entry 1), and the machine is Halted with cause None until the host issues `run()` (log entry 3). -/
def State.reset : State :=
  { a := 0x00#8, x := 0x00#8, y := Config.yInit, p := 0x00#8,
    pc := Config.memInit (Config.resetVector.toNat + 1) ++ Config.memInit Config.resetVector.toNat,
    run := .halted, cause := .none, mem := [] }

end Sys2Proof.Machine
end

