-- ==== Sys2Proof/Machine/Ops.lean ====
section
/-! DEFINITION. The named operations over memory and registers: the memory port (20_memory.md R51 to R54), register
writes (00_scope.md R12), the advance of the program counter (40_fetch_decode_execute.md R112, R114), the entry of
a fatal condition (60_exceptions.md R205), the normal end of a run (45_terminate.md R190) and the start of a run
(70_reset_and_hazards.md R236). -/

namespace Sys2Proof.Machine

/-- The byte at an address: what the memory lists, else the power-on byte (R30, R61). -/
def Memory.byteAt : Memory → Nat → Byte
  | [], a => Config.memInit a
  | (b, v) :: m, a => if a = b then v else Memory.byteAt m a

/-- Store a byte, keeping the canonical form: cells strictly rising, none equal to the unlisted byte. -/
def Memory.store : Memory → Nat → Byte → Memory
  | [], a, v => if v = Config.memInit a then [] else [(a, v)]
  | (b, w) :: m, a, v =>
    if a < b then (if v = Config.memInit a then (b, w) :: m else (a, v) :: (b, w) :: m)
    else if a = b then (if v = Config.memInit a then m else (a, v) :: m)
    else (b, w) :: Memory.store m a v

/-- The canonical form from an address on: every listed address is at least `lo`, below `MEM_SIZE`, above the one
before it, and its byte differs from the unlisted byte. -/
def Memory.wfFrom : Nat → Memory → Bool
  | _, [] => true
  | lo, (a, v) :: m =>
    decide (lo ≤ a) && decide (a < Config.memSize) && decide (v ≠ Config.memInit a) && Memory.wfFrom (a + 1) m

/-- The memory is in its one canonical form. -/
def Memory.wf (m : Memory) : Bool := Memory.wfFrom 0 m

/-- `MemRead(addr, 1)` (R51): the byte, or AddressRange(addr) at or above `MEM_SIZE`. -/
def memRead (m : Memory) (addr : Word) : Except Fault Byte :=
  if addr.toNat < Config.memSize then .ok (m.byteAt addr.toNat) else .error (.addressRange addr)

/-- `MemWrite(addr, 1, v)` (R52): the new memory, or AddressRange(addr) with no byte changed. -/
def memWrite (m : Memory) (addr : Word) (v : Byte) : Except Fault Memory :=
  if addr.toNat < Config.memSize then .ok (m.store addr.toNat v) else .error (.addressRange addr)

/-- `read16(addr)` (R53): little-endian, low byte first; `pos+1` by `add16` (D10, D17). -/
def read16 (m : Memory) (addr : Word) : Except Fault Word := do
  let lo ← memRead m addr
  let hi ← memRead m (add16 addr 1#16)
  return joinBytes hi lo

/-- `write16(addr, w)` (R54): low byte first. The second component is the condition raised, if any; if the second
write raises, the first has already changed memory. -/
def write16 (m : Memory) (addr : Word) (w : Word) : Memory × Option Fault :=
  match memWrite m addr (lowByte w) with
  | .error f => (m, some f)
  | .ok m1 =>
    match memWrite m1 (add16 addr 1#16) (highByte w) with
    | .error f => (m1, some f)
    | .ok m2 => (m2, none)

/-- `A <- v` (R12). -/
def State.setA (s : State) (v : Byte) : State := { s with a := v }

/-- `X <- v` (R12). -/
def State.setX (s : State) (v : Byte) : State := { s with x := v }

/-- `P <- v` (R12). -/
def State.setP (s : State) (v : Byte) : State := { s with p := v }

/-- `pc <- add16(pc, n)`: the only way a step moves the program counter (R112, R114, R118). -/
def State.advance (s : State) (n : Word) : State := { s with pc := add16 s.pc n }

/-- Entry of a fatal condition inside a step (R205): `run <- Halted; cause <- Fault(K, info)`; nothing else changes.
No state is saved, no vector is read, `pc` is not redirected. -/
def State.raise (s : State) (f : Fault) : State := { s with run := .halted, cause := .fault f }

/-- `halt(Terminated)` (R190): the normal end of a run. -/
def State.terminate (s : State) : State := { s with run := .halted, cause := .terminated }

/-- Leaving Halted (R210, R218, R236): there is no return from a fatal condition; only the host's `run()` makes the
machine Running again, with cause None, from whatever the registers hold. -/
def State.beginRun (s : State) : State := { s with run := .running, cause := .none }

/-- The opcode fetch and the generic advance (R110, R111, R112): the opcode byte and the state with `pc` at the first
operand byte. A fetch that raises has advanced nothing. -/
def fetch (s : State) : Except Fault (Byte × State) := do
  let opcode ← memRead s.mem s.pc
  return (opcode, s.advance 1#16)

/-- Store bytes at ascending addresses from `a` on, those that Memory has. -/
def Memory.storeBytes : Memory → Nat → List Byte → Memory
  | m, _, [] => m
  | m, a, b :: bs => Memory.storeBytes (if a < Config.memSize then m.store a b else m) (a + 1) bs

end Sys2Proof.Machine
end

