-- ==== Sys2Proof/Machine/Flags.lean ====
section
/-! DEFINITION. The status register's fields (10_state.md R26 to R28) and the one flag update the spec has
(42_alu_and_flags.md R152, R153). -/

namespace Sys2Proof.Machine

/-- The byte with bit `i` alone set. -/
def bitMask (i : Nat) : Byte := 1#8 <<< i

/-- A byte with bit `i` set to `b` and the others unchanged. -/
def setBit (p : Byte) (i : Nat) (b : Bool) : Byte := if b then p ||| bitMask i else p &&& ~~~ bitMask i

/-- `P.Z` (R27). -/
def zeroFlag (p : Byte) : Bool := p.getLsbD Config.zBit

/-- `P.N` (R28). -/
def negativeFlag (p : Byte) : Bool := p.getLsbD Config.nBit

/-- The six reserved bits of `P`, the others zero (R26). -/
def reservedBits (p : Byte) : Byte := p &&& ~~~ (bitMask Config.zBit ||| bitMask Config.nBit)

/-- `set_zero_negative(v)` on the status byte (R152): both flags recomputed, the six other bits unchanged. -/
def setZeroNegative (v p : Byte) : Byte := setBit (setBit p Config.zBit (decide (v = 0x00#8))) Config.nBit (bit7 v)

/-- `set_zero_negative(v)` on the state (R152). -/
def State.setZN (s : State) (v : Byte) : State := s.setP (setZeroNegative v s.p)

end Sys2Proof.Machine
end

