-- ==== Sys2Proof/Machine/Operands.lean ====
section
/-! DEFINITION. The addressing-mode resolver, one arm per mode tag (41_addressing_modes.md R130 to R143), the data read
after it (43_load_accumulator.md R165), and the addresses both access, in order (20_memory.md R68). -/

namespace Sys2Proof.Machine

/-- The word a zero-page pointer names: low byte at `ptr`, high byte at `ptr + 1` modulo 256, which stays in the zero
page (R138, R139). -/
def pointerWord (m : Memory) (ptr : Byte) : Except Fault Word := do
  let lo ← memRead m (zext16 ptr)
  let hi ← memRead m (zext16 (add8 ptr 1#8))
  return joinBytes hi lo

/-- `resolve(mode)` (R130), with `pc` at the first operand byte. It reads `pc`, `X`, `Y` and memory and changes
nothing (R142). Indirect-Y indexes the POINTER byte by `Y`, as the reference does (R139, D6, log entry 12). -/
def resolve (mode : Mode) (s : State) : Except Fault Word :=
  match mode with
  | .immediate => .ok s.pc
  | .zeroPage => do
    let b ← memRead s.mem s.pc
    return zext16 b
  | .zeroPageX => do
    let b ← memRead s.mem s.pc
    return zext16 (add8 b s.x)
  | .zeroPageY => do
    let b ← memRead s.mem s.pc
    return zext16 (add8 b s.y)
  | .absolute => read16 s.mem s.pc
  | .absoluteX => do
    let w ← read16 s.mem s.pc
    return add16 w (zext16 s.x)
  | .absoluteY => do
    let w ← read16 s.mem s.pc
    return add16 w (zext16 s.y)
  | .indirectX => do
    let b ← memRead s.mem s.pc
    pointerWord s.mem (add8 b s.x)
  | .indirectY => do
    let b ← memRead s.mem s.pc
    pointerWord s.mem (add8 b s.y)
  | .none => .error (.unsupportedAddressingMode .none)

/-- The data byte of a load: resolve the address, then read the byte there (R165). -/
def loadByte (mode : Mode) (s : State) : Except Fault Byte := do
  let addr ← resolve mode s
  memRead s.mem addr

/-- The addresses a 16-bit read accesses, in order; a read that raises is the last (R53, R68). -/
def read16Accesses (m : Memory) (addr : Word) : List Word :=
  match memRead m addr with
  | .error _ => [addr]
  | .ok _ => [addr, add16 addr 1#16]

/-- The addresses a zero-page pointer read accesses, in order (R68). -/
def pointerAccesses (ptr : Byte) : List Word := [zext16 ptr, zext16 (add8 ptr 1#8)]

/-- The addresses an indirect mode's resolution accesses with index `idx`, in order (R68). -/
def indirectAccesses (m : Memory) (pc : Word) (idx : Byte) : List Word :=
  match memRead m pc with
  | .error _ => [pc]
  | .ok b => pc :: pointerAccesses (add8 b idx)

/-- The addresses the resolver accesses, in order (R68; the resolver reads nothing in Immediate, R131). -/
def resolveAccesses (mode : Mode) (s : State) : List Word :=
  match mode with
  | .immediate => []
  | .zeroPage => [s.pc]
  | .zeroPageX => [s.pc]
  | .zeroPageY => [s.pc]
  | .absolute => read16Accesses s.mem s.pc
  | .absoluteX => read16Accesses s.mem s.pc
  | .absoluteY => read16Accesses s.mem s.pc
  | .indirectX => indirectAccesses s.mem s.pc s.x
  | .indirectY => indirectAccesses s.mem s.pc s.y
  | .none => []

/-- The addresses a load accesses after its opcode fetch: the resolver's, then the data byte's where the resolution
answered one (R68). -/
def loadAccesses (mode : Mode) (s : State) : List Word :=
  match resolve mode s with
  | .error _ => resolveAccesses mode s
  | .ok addr => resolveAccesses mode s ++ [addr]

end Sys2Proof.Machine
end

