-- ==== Sys2Proof/Machine/Load.lean ====
section
/-! DEFINITION. The load-accumulator family (43_load_accumulator.md R165 to R173): one shared operation and one meaning
per encoding. Each meaning starts with `pc` at the first operand byte, after the common fetch (R110). -/

namespace Sys2Proof.Machine

/-- The writes of a load, in the order of R165: `A <- v`, `set_zero_negative(A)`, `pc <- add16(pc, n)`. -/
def State.loaded (s : State) (v : Byte) (n : Word) : State := ((s.setA v).setZN v).advance n

/-- `lda(m, n)` (R165): all reads come before the first write, so a load that raises has written nothing (R206). -/
def lda (mode : Mode) (n : Word) (s : State) : Result :=
  match loadByte mode s with
  | .error f => .next (s.raise f)
  | .ok v => .next (s.loaded v n)

/-- Load-accumulator, Immediate (R166). -/
def execLdaImm (s : State) : Result := lda .immediate 1#16 s

/-- Load-accumulator, ZeroPage (R167). -/
def execLdaZp (s : State) : Result := lda .zeroPage 1#16 s

/-- Load-accumulator, ZeroPage-indexed-by-X (R168). -/
def execLdaZpX (s : State) : Result := lda .zeroPageX 1#16 s

/-- Load-accumulator, Absolute (R169). -/
def execLdaAbs (s : State) : Result := lda .absolute 2#16 s

/-- Load-accumulator, Absolute-indexed-by-X (R170). -/
def execLdaAbsX (s : State) : Result := lda .absoluteX 2#16 s

/-- Load-accumulator, Absolute-indexed-by-Y (R171). -/
def execLdaAbsY (s : State) : Result := lda .absoluteY 2#16 s

/-- Load-accumulator, Indirect-X (R172). -/
def execLdaIndX (s : State) : Result := lda .indirectX 1#16 s

/-- Load-accumulator, Indirect-Y, reference behaviour (R173). -/
def execLdaIndY (s : State) : Result := lda .indirectY 1#16 s

end Sys2Proof.Machine
end

