-- ==== Sys2Proof/Machine/Terminate.lean ====
section
/-! DEFINITION. Terminate and every opcode byte without a handler (45_terminate.md R190, R191). -/

namespace Sys2Proof.Machine

/-- Terminate (R190): `run <- Halted; cause <- Terminated`; nothing further. It is no software interrupt. -/
def execBrk (s : State) : Result := .next s.terminate

/-- Any other opcode byte (R191): the fatal condition UnimplementedInstruction(opcode), after the generic advance. -/
def execUnimplemented (opcode : Byte) (s : State) : Result := .next (s.raise (.unimplementedInstruction opcode))

end Sys2Proof.Machine
end

