-- ==== Sys2Proof/Machine/Transfer.lean ====
section
/-! DEFINITION. Register transfer and increment (44_transfer_increment.md R180, R181). Neither has an operand, so neither
advances `pc` beyond the fetch. -/

namespace Sys2Proof.Machine

/-- `X <- v; set_zero_negative(X)`, common to both. -/
def State.writeX (s : State) (v : Byte) : State := (s.setX v).setZN v

/-- Transfer-accumulator-to-X (R180). -/
def execTax (s : State) : Result := .next (s.writeX s.a)

/-- Increment-X (R181): the sum is taken from the old `X`. -/
def execInx (s : State) : Result := .next (s.writeX (add8 s.x 1#8))

end Sys2Proof.Machine
end

