-- ==== Sys2Proof/Machine/Dispatch.lean ====
section
/-! DEFINITION. The dispatch: one handler per instruction (40_fetch_decode_execute.md R110, R113). -/

namespace Sys2Proof.Machine

def exec (i : Instr) (s : State) : Host.Outcome State Fault Refusal :=
  match i with
  | .brk => Sys2Proof.Machine.execBrk s
  | .ldaIndX => Sys2Proof.Machine.execLdaIndX s
  | .ldaZp => Sys2Proof.Machine.execLdaZp s
  | .ldaImm => Sys2Proof.Machine.execLdaImm s
  | .tax => Sys2Proof.Machine.execTax s
  | .ldaAbs => Sys2Proof.Machine.execLdaAbs s
  | .ldaIndY => Sys2Proof.Machine.execLdaIndY s
  | .ldaZpX => Sys2Proof.Machine.execLdaZpX s
  | .ldaAbsY => Sys2Proof.Machine.execLdaAbsY s
  | .ldaAbsX => Sys2Proof.Machine.execLdaAbsX s
  | .inx => Sys2Proof.Machine.execInx s

end Sys2Proof.Machine
end

