-- ==== Sys2Proof/Machine/Step.lean ====
section
/-! DEFINITION. One step of the engine (40_fetch_decode_execute.md R110), and the placing of one instruction where the next
step fetches. -/

namespace Sys2Proof.Machine

/-- One step (R110): fetch the opcode byte, advance `pc` by one, dispatch. "A step is enabled iff run = Running": in
Halted nothing happens and all state survives unchanged (R217, R218), so the step answers the same state (DESIGN
CHOICE, log entry 8). A fatal condition is a next state (R205, log entry 7). -/
def step (s : State) : Host.Outcome State Fault Refusal :=
  match s.run with
  | .halted => .next s
  | .running =>
    match fetch s with
    | .error f => .next (s.raise f)
    | .ok r =>
      match decodeOpcode r.1 with
      | none => execUnimplemented r.1 r.2
      | some i => exec i r.2

/-- `s` with one instruction stored where `step` fetches its next and the machine Running with cause None: it stands
for the host's load of the instruction's bytes at `pc` and its `run()` (log entry 3). Address 0xFFFF has no byte, so
what would lie there is not stored. -/
def State.withFetchWord (s : State) (nbits w : Nat) : State :=
  { s.beginRun with mem := s.mem.storeBytes s.pc.toNat (tableBytes nbits w) }

/-- The addresses one step accesses, in order (20_memory.md R68): the opcode byte's, then, for a load, those of its
resolution and its data byte. A Halted machine accesses none. -/
def stepAccesses (s : State) : List Word :=
  match s.run with
  | .halted => []
  | .running =>
    match fetch s with
    | .error _ => [s.pc]
    | .ok r =>
      match decodeOpcode r.1 with
      | none => [s.pc]
      | some i => if modeOf i = .none then [s.pc] else s.pc :: loadAccesses (modeOf i) r.2

end Sys2Proof.Machine
end

