-- ==== Sys2Proof/Machine/Commands.lean ====
section
/-! DEFINITION. The host's operations on the block (70_reset_and_hazards.md R230 to R237, R244; 20_memory.md R66): commands the
host issues while the engine is Halted. They are no part of `step` (log entry 8). -/

namespace Sys2Proof.Machine

/-- What the host reads back after a run (10_state.md R35). -/
structure Observation where
  a     : Byte
  x     : Byte
  y     : Byte
  p     : Byte
  pc    : Word
  run   : RunState
  cause : Cause
  deriving DecidableEq, Repr

/-- The commands of the host control port and of the host observation port (00_scope.md R8; R244). -/
inductive Command where
  | read (addr : Word)
  | write (addr : Word) (v : Byte)
  | read16 (addr : Word)
  | write16 (addr : Word) (w : Word)
  | load (image : List Byte)
  | reset
  | run
  | loadAndRun (image : List Byte)
  | observe
  deriving DecidableEq, Repr

/-- What the block answers to a command. -/
inductive Answer where
  /-- The command was carried out. -/
  | done
  | byte (v : Byte)
  | word (w : Word)
  | registers (o : Observation)
  /-- The command was rejected with a fatal condition, reported as the result of the call (R66, R200, D13). -/
  | rejected (f : Fault)
  /-- The engine is Running: the host has no move (R239, D23). -/
  | noMove
  deriving DecidableEq, Repr

/-- Steps until the machine is Halted, at most `n` (40_fetch_decode_execute.md R115). -/
def runLoop : Nat → State → State
  | 0, s => s
  | n + 1, s =>
    match s.run with
    | .halted => s
    | .running =>
      match step s with
      | .next t => runLoop n t
      | .fault _ => s
      | .refused _ => s

/-- `read(addr)` (R66). -/
def hostRead (addr : Word) (s : State) : Answer × State :=
  match memRead s.mem addr with
  | .ok v => (.byte v, s)
  | .error f => (.rejected f, s)

/-- `write(addr, byte)` (R66). -/
def hostWrite (addr : Word) (v : Byte) (s : State) : Answer × State :=
  match memWrite s.mem addr v with
  | .ok m => (.done, { s with mem := m })
  | .error f => (.rejected f, s)

/-- `read16(addr)` (R66). -/
def hostRead16 (addr : Word) (s : State) : Answer × State :=
  match Machine.read16 s.mem addr with
  | .ok w => (.word w, s)
  | .error f => (.rejected f, s)

/-- `write16(addr, word)` (R54, R66): a low byte already written stays written. -/
def hostWrite16 (addr : Word) (w : Word) (s : State) : Answer × State :=
  match Machine.write16 s.mem addr w with
  | (m, none) => (.done, { s with mem := m })
  | (m, some f) => (.rejected f, { s with mem := m })

/-- `load(image)` (R234, R235): rejected whole if too long; else the image from `ORIGIN` up, then the reset vector. -/
def hostLoad (image : List Byte) (s : State) : Answer × State :=
  if Config.maxImage < image.length then (.rejected (.oversizedLoad image.length), s)
  else hostWrite16 Config.resetVector Config.origin { s with mem := s.mem.storeBytes Config.origin.toNat image }

/-- `reset()` (R230): `A`, `X`, `P` zero, `pc` from the reset vector; `Y`, memory, run state and cause unchanged
(R231). -/
def hostReset (s : State) : Answer × State :=
  match Machine.read16 s.mem Config.resetVector with
  | .error f => (.rejected f, { s with a := 0x00#8, x := 0x00#8, p := 0x00#8 })
  | .ok w => (.done, { s with a := 0x00#8, x := 0x00#8, p := 0x00#8, pc := w })

/-- `run()` (R115, R236): Running with cause None, then steps until Halted; every run ends within the bound (R119). -/
def hostRun (s : State) : Answer × State := (.done, runLoop Config.runBound s.beginRun)

/-- `load_and_run(image)` (R237): if `load` rejects, `reset` and `run` are not performed. -/
def hostLoadAndRun (image : List Byte) (s : State) : Answer × State :=
  match hostLoad image s with
  | (.done, s1) =>
    match hostReset s1 with
    | (.done, s2) => hostRun s2
    | r => r
  | r => r

/-- Reading the registers, the run state and the cause (R35). -/
def hostObserve (s : State) : Answer × State :=
  (.registers { a := s.a, x := s.x, y := s.y, p := s.p, pc := s.pc, run := s.run, cause := s.cause }, s)

/-- One command of the host: accepted in Halted alone (R239, R244). -/
def command (c : Command) (s : State) : Answer × State :=
  match s.run with
  | .running => (.noMove, s)
  | .halted =>
    match c with
    | .read addr => hostRead addr s
    | .write addr v => hostWrite addr v s
    | .read16 addr => hostRead16 addr s
    | .write16 addr w => hostWrite16 addr w s
    | .load image => hostLoad image s
    | .reset => hostReset s
    | .run => hostRun s
    | .loadAndRun image => hostLoadAndRun image s
    | .observe => hostObserve s

/-- A sequence of commands, one after another; what survives between runs is everything (R245). -/
def commands : List Command → State → State
  | [], s => s
  | c :: cs, s => commands cs (command c s).2

end Sys2Proof.Machine
end

