-- ==== Sys2Proof/Safety.lean ====
section
/-! DEFINITION. What counts as the end of a run, which fatal conditions a step can record, and the invariant of the
machine, in the terms claims use. -/

namespace Sys2Proof.Machine

/-- A successful end of a run (70_reset_and_hazards.md R243). A state whose cause is a fatal condition is never final
(60_exceptions.md R207). -/
abbrev State.Final (s : State) : Prop := s.run = .halted ∧ s.cause = .terminated

/-- The state of a run that a fatal condition ended (R205, R207). -/
abbrev State.FaultedBy (s : State) (f : Fault) : Prop := s.run = .halted ∧ s.cause = .fault f

/-- The fatal conditions a step of this hardware can record with the fixed opcode table (R200): an opcode byte without
a handler, or an access at 0xFFFF. -/
def Fault.ofStep : Fault → Bool
  | .unimplementedInstruction opcode => (decodeOpcode opcode).isNone
  | .unsupportedAddressingMode _ => false
  | .addressRange addr => addr == 0xFFFF#16
  | .oversizedLoad _ => false

/-- What a recorded cause may be (R29, R200). -/
def Cause.legal : Cause → Bool
  | .none => true
  | .terminated => true
  | .fault f => f.ofStep

/-- The invariant: memory in its canonical form, a Running machine has cause None (R29, R236), and a recorded fatal
condition is one a step can raise (R200). -/
abbrev State.Inv (s : State) : Prop :=
  s.mem.wf = true ∧ (s.run = .running → s.cause = .none) ∧ s.cause.legal = true

/-- `q` is a status byte after `set_zero_negative(v)` on `p`, in terms of its flags (10_state.md R27, R28; 42_alu_and_flags.md
R152). -/
abbrev FlagsFrom (v p q : Byte) : Prop :=
  zeroFlag q = decide (v = 0x00#8) ∧ negativeFlag q = v.getLsbD 7 ∧ reservedBits q = reservedBits p

/-- The three values of `P` in a run that began with `reset` (R28; the numbers rest on D3, log entry 5). -/
abbrev State.StatusLegal (s : State) : Prop := s.p = 0x00#8 ∨ s.p = 0x02#8 ∨ s.p = 0x80#8

end Sys2Proof.Machine
end

