-- ==== Sys2Proof/Certificates/Slice0/Obligations.lean ====
section
/-! DEFINITION. The statements for the provers, in the order of spec/: arithmetic and flags, memory, encoding, the resolver,
each instruction, the step, whole-machine rules, the host's commands. A fatal condition is a next state (log entry
7); `State.FaultedBy` says run and cause of such a state and nothing of its registers (60_exceptions.md R207). -/

open Sys2Proof Sys2Proof.Machine

/-! ### Arithmetic and flags -/

/-- 00_scope.md R13: add8, add16 and bit7, with the operand of a 16-bit sum zero-extended first. -/
def Obligations.ArithmeticWraps : Prop :=
  (∀ a b : Byte, (add8 a b).toNat = (a.toNat + b.toNat) % 256) ∧
  (∀ a b : Word, (add16 a b).toNat = (a.toNat + b.toNat) % 65536) ∧
  (∀ (a : Word) (b : Byte), (add16 a (zext16 b)).toNat = (a.toNat + b.toNat) % 65536) ∧
  (∀ v : Byte, bit7 v = v.getLsbD 7 ∧ (bit7 v = true ↔ v &&& 0x80#8 ≠ 0x00#8))

/-- 42_alu_and_flags.md R152: both flags recomputed from the value, every other bit unchanged, never both set; where
the flags stand at bits 1 and 7 and the reserved bits are 0, the number `P` becomes; and the value the operation is
called with is the one just written, the new `A` or the new `X`. The two positions are premises, so nothing here rests
on decision D3. -/
def Obligations.FlagUpdateRecomputesBoth : Prop :=
  (∀ v p : Byte,
    zeroFlag (setZeroNegative v p) = decide (v = 0x00#8) ∧
    negativeFlag (setZeroNegative v p) = v.getLsbD 7 ∧
    (∀ i < 8, i ≠ Config.zBit → i ≠ Config.nBit → (setZeroNegative v p).getLsbD i = p.getLsbD i) ∧
    ¬ (zeroFlag (setZeroNegative v p) = true ∧ negativeFlag (setZeroNegative v p) = true) ∧
    (Config.zBit = 1 → Config.nBit = 7 → p &&& 0x7D#8 = 0x00#8 →
      setZeroNegative v p = if v = 0x00#8 then 0x02#8 else if v.toNat < 0x80 then 0x00#8 else 0x80#8)) ∧
  (∀ (i : Instr) (s t : State), s.run = .running → exec i s = .next t → t.run = .running →
    t.p = setZeroNegative (if modeOf i = .none then t.x else t.a) s.p)

/-! ### Memory -/

/-- 20_memory.md R51 (its remark on 0xFFFF is the spec's inference, and the size is decision D2, log entry 4). -/
def Obligations.MemReadIsBounded : Prop :=
  ∀ (m : Memory) (addr : Word),
    (addr.toNat < 65535 → memRead m addr = .ok (m.byteAt addr.toNat)) ∧
    (65535 ≤ addr.toNat → addr = 0xFFFF#16 ∧ memRead m addr = .error (.addressRange 0xFFFF#16))

/-- 20_memory.md R52: one byte is written and no other changes, or AddressRange; and no opcode writes memory. -/
def Obligations.MemWriteChangesOneByte : Prop :=
  (∀ (m : Memory) (addr : Word) (v : Byte), m.wf = true →
    (addr.toNat < Config.memSize → ∃ m', memWrite m addr v = .ok m' ∧ m'.wf = true ∧ m'.byteAt addr.toNat = v ∧
      ∀ c, c ≠ addr.toNat → m'.byteAt c = m.byteAt c) ∧
    (Config.memSize ≤ addr.toNat → memWrite m addr v = .error (.addressRange addr))) ∧
  (∀ (i : Instr) (s t : State), exec i s = .next t → t.mem = s.mem)

/-- 20_memory.md R53, R54, R55 (byte order of the two accesses: decision D10): a word written reads back, low byte
at the address and high byte after it, and no other byte changes. -/
def Obligations.WordReadsBackAsWritten : Prop :=
  ∀ (m : Memory) (addr w : Word), m.wf = true → addr.toNat + 1 < 65535 →
    ∃ m', write16 m addr w = (m', none) ∧ m'.wf = true ∧ read16 m' addr = .ok w ∧
      (m'.byteAt addr.toNat).toNat = w.toNat % 256 ∧ (m'.byteAt (addr.toNat + 1)).toNat = w.toNat / 256 ∧
      ∀ c, c ≠ addr.toNat → c ≠ addr.toNat + 1 → m'.byteAt c = m.byteAt c

/-- 20_memory.md R53, R54 at the top of the address space: a 16-bit access at 0xFFFE or 0xFFFF raises
AddressRange(0xFFFF), and a `write16` at 0xFFFE has already written its low byte (decisions D2, D10, D17). -/
def Obligations.WordAccessAtTheTopRaises : Prop :=
  ∀ (m : Memory) (w : Word), m.wf = true →
    read16 m 0xFFFE#16 = .error (.addressRange 0xFFFF#16) ∧
    read16 m 0xFFFF#16 = .error (.addressRange 0xFFFF#16) ∧
    write16 m 0xFFFF#16 w = (m, some (.addressRange 0xFFFF#16)) ∧
    ∃ m', write16 m 0xFFFE#16 w = (m', some (.addressRange 0xFFFF#16)) ∧ m'.wf = true ∧
      (m'.byteAt 0xFFFE).toNat = w.toNat % 256 ∧ ∀ c, c ≠ 0xFFFE → m'.byteAt c = m.byteAt c

/-- The canonical form is one form (the model's own convention): memories that read alike are equal. -/
def Obligations.MemoriesThatReadAlikeAreEqual : Prop :=
  ∀ m m' : Memory, m.wf = true → m'.wf = true → (∀ a < 65535, m.byteAt a = m'.byteAt a) → m = m'

/-- 10_state.md R30, R34 and decision D9: whatever the power-on contents are, some memory of the model holds them; so a
statement about every state holds for every MEM_INIT, whatever log entry 1 chose for unlisted bytes. -/
def Obligations.EveryContentsIsSomeMemory : Prop :=
  ∀ f : Nat → Byte, ∃ m : Memory, m.wf = true ∧ ∀ a < 65535, m.byteAt a = f a

/-! ### Encoding -/

/-- The eleven opcode bytes of 30_encoding.md R86, written out, and five bytes without a handler (R88). Five of the bytes
are general knowledge (decision D4, log entry 6). -/
def Obligations.OpcodeBytesDecode : Prop :=
  decodeOpcode 0x00#8 = some .brk ∧ decodeOpcode 0xA1#8 = some .ldaIndX ∧ decodeOpcode 0xA5#8 = some .ldaZp ∧
  decodeOpcode 0xA9#8 = some .ldaImm ∧ decodeOpcode 0xAA#8 = some .tax ∧ decodeOpcode 0xAD#8 = some .ldaAbs ∧
  decodeOpcode 0xB1#8 = some .ldaIndY ∧ decodeOpcode 0xB5#8 = some .ldaZpX ∧ decodeOpcode 0xB9#8 = some .ldaAbsY ∧
  decodeOpcode 0xBD#8 = some .ldaAbsX ∧ decodeOpcode 0xE8#8 = some .inx ∧
  decodeOpcode 0xEA#8 = none ∧ decodeOpcode 0xA2#8 = none ∧ decodeOpcode 0xB6#8 = none ∧
  decodeOpcode 0x01#8 = none ∧ decodeOpcode 0xFF#8 = none

/-- 30_encoding.md R86, R88, R93: a byte decodes to an instruction exactly when it is that instruction's opcode byte, and
245 of the 256 byte values have no handler. -/
def Obligations.OpcodeMapIsExact : Prop :=
  (∀ (b : Byte) (i : Instr), decodeOpcode b = some i ↔ b = opcodeOf i) ∧
  ((List.range 256).filter fun n => (decodeOpcode (BitVec.ofNat 8 n)).isNone).length = 245

/-- 30_encoding.md R80 to R85, R93: an instruction with its operand bytes, every operand byte at every value, reads back
whatever follows it, and its length is that of its format. -/
def Obligations.CodeReadsBack : Prop :=
  ∀ (c : Code) (rest : List Byte), c.WellFormed →
    decode (encode c ++ rest) = .ok (c, rest) ∧ (encode c).length = lengthOf c.op

/-- 30_encoding.md R93: whatever the decoder reads is well formed, and its bytes are its encoding. -/
def Obligations.OnlyEncodingsAreRead : Prop :=
  ∀ (bs rest : List Byte) (c : Code), decode bs = .ok (c, rest) → c.WellFormed ∧ bs = encode c ++ rest

/-- 30_encoding.md R93, 70_reset_and_hazards.md R234 ("the raw byte stream is the format"): every program, of any
length, reads back from its bytes. -/
def Obligations.ProgramsReadBack : Prop :=
  ∀ cs : List Code, (∀ c ∈ cs, c.WellFormed) → decodeAll (encodeAll cs).length (encodeAll cs) = .ok cs

/-- The placing of one instruction (log entry 3): what the decoder reads from a table word is what the next step runs. -/
def Obligations.PlacedWordIsRunNext : Prop :=
  ∀ (s : State) (nbits w : Nat) (i : Instr), s.mem.wf = true → s.pc ≠ 0xFFFF#16 → decodeTableWord nbits w = some i →
    step (s.withFetchWord nbits w) = exec i { s.withFetchWord nbits w with pc := add16 s.pc 1#16 }

/-! ### The resolver -/

/-- 41_addressing_modes.md R131, R132, R133. -/
def Obligations.SingleByteModesResolve : Prop :=
  ∀ s : State,
    resolve .immediate s = .ok s.pc ∧
    (s.pc ≠ 0xFFFF#16 →
      resolve .zeroPage s = .ok (zext16 (s.mem.byteAt s.pc.toNat)) ∧
      resolve .zeroPageX s = .ok (zext16 (add8 (s.mem.byteAt s.pc.toNat) s.x))) ∧
    (s.pc = 0xFFFF#16 →
      memRead s.mem s.pc = .error (.addressRange 0xFFFF#16) ∧
      resolve .zeroPage s = .error (.addressRange 0xFFFF#16) ∧
      resolve .zeroPageX s = .error (.addressRange 0xFFFF#16)) ∧
    (∀ addr, resolve .zeroPage s = .ok addr ∨ resolve .zeroPageX s = .ok addr → addr.toNat ≤ 0xFF) ∧
    Mode.immediate.operandBytes = 1 ∧ Mode.zeroPage.operandBytes = 1 ∧ Mode.zeroPageX.operandBytes = 1

/-- 41_addressing_modes.md R134, with the spec's decision that no opcode declares the mode (C1, D5, log entry 13). -/
def Obligations.ZeroPageYResolvesButNoOpcodeUsesIt : Prop :=
  (∀ s : State,
    (s.pc ≠ 0xFFFF#16 → resolve .zeroPageY s = .ok (zext16 (add8 (s.mem.byteAt s.pc.toNat) s.y))) ∧
    (s.pc = 0xFFFF#16 → resolve .zeroPageY s = .error (.addressRange 0xFFFF#16)) ∧
    (∀ addr, resolve .zeroPageY s = .ok addr → addr.toNat ≤ 0xFF)) ∧
  (∀ i : Instr, modeOf i ≠ .zeroPageY) ∧ Mode.zeroPageY.operandBytes = 1

/-- 41_addressing_modes.md R135, R136, R137. -/
def Obligations.AbsoluteModesResolve : Prop :=
  (∀ s : State,
    (s.pc.toNat < 0xFFFE →
      resolve .absolute s = .ok (joinBytes (s.mem.byteAt (s.pc.toNat + 1)) (s.mem.byteAt s.pc.toNat)) ∧
      resolve .absoluteX s =
        .ok (add16 (joinBytes (s.mem.byteAt (s.pc.toNat + 1)) (s.mem.byteAt s.pc.toNat)) (zext16 s.x)) ∧
      resolve .absoluteY s =
        .ok (add16 (joinBytes (s.mem.byteAt (s.pc.toNat + 1)) (s.mem.byteAt s.pc.toNat)) (zext16 s.y))) ∧
    (0xFFFE ≤ s.pc.toNat →
      resolve .absolute s = .error (.addressRange 0xFFFF#16) ∧
      resolve .absoluteX s = .error (.addressRange 0xFFFF#16) ∧
      resolve .absoluteY s = .error (.addressRange 0xFFFF#16))) ∧
  (∀ w : Word, ∃ s : State, resolve .absolute s = .ok w) ∧
  Mode.absolute.operandBytes = 2 ∧ Mode.absoluteX.operandBytes = 2 ∧ Mode.absoluteY.operandBytes = 2

/-- 41_addressing_modes.md R138, R139 (reference Indirect-Y: decision D6, log entry 12; low byte first: D10): the index is
added to the pointer byte, and the high byte of the target comes from the zero page too; pointer 0xFF takes it from
0x0000. -/
def Obligations.IndirectModesResolve : Prop :=
  ∀ s : State,
    (s.pc = 0xFFFF#16 →
      resolve .indirectX s = .error (.addressRange 0xFFFF#16) ∧
      resolve .indirectY s = .error (.addressRange 0xFFFF#16)) ∧
    (s.pc ≠ 0xFFFF#16 → ∀ b : Byte, b = s.mem.byteAt s.pc.toNat →
      resolve .indirectX s = .ok (joinBytes (s.mem.byteAt (add8 (add8 b s.x) 1#8).toNat) (s.mem.byteAt (add8 b s.x).toNat)) ∧
      resolve .indirectY s = .ok (joinBytes (s.mem.byteAt (add8 (add8 b s.y) 1#8).toNat) (s.mem.byteAt (add8 b s.y).toNat)) ∧
      (add8 b s.x = 0xFF#8 → resolve .indirectX s = .ok (joinBytes (s.mem.byteAt 0x0000) (s.mem.byteAt 0x00FF))) ∧
      (add8 b s.y = 0xFF#8 → resolve .indirectY s = .ok (joinBytes (s.mem.byteAt 0x0000) (s.mem.byteAt 0x00FF))))

/-- 41_addressing_modes.md R140, 60_exceptions.md R202 (its unreachability is the spec's inference): resolving None
raises, and no step of this hardware records that condition. -/
def Obligations.ResolvingNoneRaisesAndNoStepDoesIt : Prop :=
  (∀ s : State, resolve .none s = .error (.unsupportedAddressingMode .none)) ∧
  (∀ (s t : State) (m : Mode), step s = .next t → s.cause ≠ .fault (.unsupportedAddressingMode m) →
    t.cause ≠ .fault (.unsupportedAddressingMode m))

/-- 41_addressing_modes.md R142: the address depends on `pc`, `X`, `Y` and memory alone; not on `A` or `P`. -/
def Obligations.ResolverIsPure : Prop :=
  ∀ (mode : Mode) (s t : State), s.pc = t.pc → s.x = t.x → s.y = t.y → s.mem = t.mem → resolve mode s = resolve mode t

/-! ### The load-accumulator family. Each meaning starts with `pc` at the first operand byte, one past the opcode byte at
`p`: so `s.pc` = 0xFFFF here is the rules' `p` = 0xFFFE. -/

/-- 43_load_accumulator.md R165, for all eight encodings at once: the writes where both reads answer, and, where one
raises, AddressRange(0xFFFF) with nothing of the machine changed but run and cause. -/
def Obligations.LoadFamilyCommonSemantics : Prop :=
  (∀ i : Instr, modeOf i ≠ .none ↔
    i ∈ [Instr.ldaImm, .ldaZp, .ldaZpX, .ldaAbs, .ldaAbsX, .ldaAbsY, .ldaIndX, .ldaIndY]) ∧
  (∀ (i : Instr) (s : State), modeOf i ≠ .none →
    (∀ (addr : Word) (v : Byte), resolve (modeOf i) s = .ok addr → memRead s.mem addr = .ok v →
      exec i s = .next { s with a := v, p := setZeroNegative v s.p, pc := add16 s.pc (BitVec.ofNat 16 (modeOf i).operandBytes) } ∧
      reservedBits (setZeroNegative v s.p) = reservedBits s.p) ∧
    (∀ f : Fault, (resolve (modeOf i) s = .error f ∨ ∃ addr, resolve (modeOf i) s = .ok addr ∧ memRead s.mem addr = .error f) →
      f = .addressRange 0xFFFF#16 ∧ exec i s = .next { s with run := .halted, cause := .fault f }))

/-- 43_load_accumulator.md R166, Immediate; its last clause: the data read is the only read besides the fetch. Its fault
clause says of the faulted registers what R166 itself says; no other statement rests on them (60_exceptions.md R207). -/
def Obligations.LoadImmediate : Prop :=
  decodeOpcode 0xA9#8 = some .ldaImm ∧ operandCount .ldaImm = 1 ∧
  (∀ s : State, s.pc ≠ 0xFFFF#16 → ∀ imm : Byte, imm = s.mem.byteAt s.pc.toNat →
    exec .ldaImm s = .next { s with a := imm, p := setZeroNegative imm s.p, pc := add16 s.pc 1#16 } ∧
        FlagsFrom imm s.p (setZeroNegative imm s.p)) ∧
  (∀ s : State, s.pc = 0xFFFF#16 →
    ∃ t, exec .ldaImm s = .next t ∧ t.FaultedBy (.addressRange 0xFFFF#16) ∧ t.a = s.a ∧ t.p = s.p ∧ t.pc = 0xFFFF#16) ∧
  (∀ s : State, s.run = .running → s.pc ≠ 0xFFFF#16 → s.mem.byteAt s.pc.toNat = 0xA9#8 →
    stepAccesses s = [s.pc, add16 s.pc 1#16])

/-- 43_load_accumulator.md R167, ZeroPage: the data read is in page 0 and cannot raise. -/
def Obligations.LoadZeroPage : Prop :=
  decodeOpcode 0xA5#8 = some .ldaZp ∧ operandCount .ldaZp = 1 ∧
  (∀ s : State, s.pc ≠ 0xFFFF#16 → ∀ zp v : Byte, zp = s.mem.byteAt s.pc.toNat → v = s.mem.byteAt (zext16 zp).toNat →
    exec .ldaZp s = .next { s with a := v, p := setZeroNegative v s.p, pc := add16 s.pc 1#16 } ∧
        FlagsFrom v s.p (setZeroNegative v s.p)) ∧
  (∀ s : State, s.pc = 0xFFFF#16 → ∃ t, exec .ldaZp s = .next t ∧ t.FaultedBy (.addressRange 0xFFFF#16))

/-- 43_load_accumulator.md R168, ZeroPage-indexed-by-X: the sum wraps in the zero page. The opcode byte is general
knowledge (D4, log entry 6). -/
def Obligations.LoadZeroPageX : Prop :=
  decodeOpcode 0xB5#8 = some .ldaZpX ∧ operandCount .ldaZpX = 1 ∧
  (∀ s : State, s.pc ≠ 0xFFFF#16 → ∀ zp v : Byte, zp = s.mem.byteAt s.pc.toNat →
    v = s.mem.byteAt ((zp.toNat + s.x.toNat) % 256) →
    exec .ldaZpX s = .next { s with a := v, p := setZeroNegative v s.p, pc := add16 s.pc 1#16 } ∧
        FlagsFrom v s.p (setZeroNegative v s.p)) ∧
  (∀ s : State, s.pc = 0xFFFF#16 → ∃ t, exec .ldaZpX s = .next t ∧ t.FaultedBy (.addressRange 0xFFFF#16))

/-- 43_load_accumulator.md R169, Absolute: little-endian operand. The opcode byte is general knowledge (D4, log
entry 6). -/
def Obligations.LoadAbsolute : Prop :=
  decodeOpcode 0xAD#8 = some .ldaAbs ∧ operandCount .ldaAbs = 2 ∧
  (∀ s : State, s.pc.toNat < 0xFFFE →
    ∀ addr : Nat, addr = (s.mem.byteAt (s.pc.toNat + 1)).toNat * 256 + (s.mem.byteAt s.pc.toNat).toNat →
    (addr ≠ 0xFFFF → ∀ v : Byte, v = s.mem.byteAt addr →
      exec .ldaAbs s = .next { s with a := v, p := setZeroNegative v s.p, pc := add16 s.pc 2#16 } ∧
        FlagsFrom v s.p (setZeroNegative v s.p)) ∧
    (addr = 0xFFFF → ∃ t, exec .ldaAbs s = .next t ∧ t.FaultedBy (.addressRange 0xFFFF#16))) ∧
  (∀ s : State, 0xFFFE ≤ s.pc.toNat → ∃ t, exec .ldaAbs s = .next t ∧ t.FaultedBy (.addressRange 0xFFFF#16))

/-- 43_load_accumulator.md R170, Absolute-indexed-by-X: the sum crosses pages and wraps modulo 65536. The opcode byte is
general knowledge (D4, log entry 6). -/
def Obligations.LoadAbsoluteX : Prop :=
  decodeOpcode 0xBD#8 = some .ldaAbsX ∧ operandCount .ldaAbsX = 2 ∧
  (∀ s : State, s.pc.toNat < 0xFFFE →
    ∀ addr : Nat,
      addr = ((s.mem.byteAt (s.pc.toNat + 1)).toNat * 256 + (s.mem.byteAt s.pc.toNat).toNat + s.x.toNat) % 65536 →
    (addr ≠ 0xFFFF → ∀ v : Byte, v = s.mem.byteAt addr →
      exec .ldaAbsX s = .next { s with a := v, p := setZeroNegative v s.p, pc := add16 s.pc 2#16 } ∧
        FlagsFrom v s.p (setZeroNegative v s.p)) ∧
    (addr = 0xFFFF → ∃ t, exec .ldaAbsX s = .next t ∧ t.FaultedBy (.addressRange 0xFFFF#16))) ∧
  (∀ s : State, 0xFFFE ≤ s.pc.toNat → ∃ t, exec .ldaAbsX s = .next t ∧ t.FaultedBy (.addressRange 0xFFFF#16))

/-- 43_load_accumulator.md R171, Absolute-indexed-by-Y, for every value of `Y`. The opcode byte is general knowledge (D4,
log entry 6). -/
def Obligations.LoadAbsoluteY : Prop :=
  decodeOpcode 0xB9#8 = some .ldaAbsY ∧ operandCount .ldaAbsY = 2 ∧
  (∀ s : State, s.pc.toNat < 0xFFFE →
    ∀ addr : Nat,
      addr = ((s.mem.byteAt (s.pc.toNat + 1)).toNat * 256 + (s.mem.byteAt s.pc.toNat).toNat + s.y.toNat) % 65536 →
    (addr ≠ 0xFFFF → ∀ v : Byte, v = s.mem.byteAt addr →
      exec .ldaAbsY s = .next { s with a := v, p := setZeroNegative v s.p, pc := add16 s.pc 2#16 } ∧
        FlagsFrom v s.p (setZeroNegative v s.p)) ∧
    (addr = 0xFFFF → ∃ t, exec .ldaAbsY s = .next t ∧ t.FaultedBy (.addressRange 0xFFFF#16))) ∧
  (∀ s : State, 0xFFFE ≤ s.pc.toNat → ∃ t, exec .ldaAbsY s = .next t ∧ t.FaultedBy (.addressRange 0xFFFF#16))

/-- 43_load_accumulator.md R172, Indirect-X: pointer and its successor stay in the zero page; only the operand read and
the data read can raise. -/
def Obligations.LoadIndirectX : Prop :=
  decodeOpcode 0xA1#8 = some .ldaIndX ∧ operandCount .ldaIndX = 1 ∧
  (∀ s : State, s.pc ≠ 0xFFFF#16 → ∀ ptr addr : Nat,
    ptr = ((s.mem.byteAt s.pc.toNat).toNat + s.x.toNat) % 256 →
    addr = (s.mem.byteAt ((ptr + 1) % 256)).toNat * 256 + (s.mem.byteAt ptr).toNat →
    (addr ≠ 0xFFFF → ∀ v : Byte, v = s.mem.byteAt addr →
      exec .ldaIndX s = .next { s with a := v, p := setZeroNegative v s.p, pc := add16 s.pc 1#16 } ∧
        FlagsFrom v s.p (setZeroNegative v s.p)) ∧
    (addr = 0xFFFF → ∃ t, exec .ldaIndX s = .next t ∧ t.FaultedBy (.addressRange 0xFFFF#16))) ∧
  (∀ s : State, s.pc = 0xFFFF#16 → ∃ t, exec .ldaIndX s = .next t ∧ t.FaultedBy (.addressRange 0xFFFF#16))

/-- 43_load_accumulator.md R173, Indirect-Y: `Y` indexes the pointer byte and is not added to the target (reference
behaviour, decision D6, log entry 12). The opcode byte is general knowledge (D4, log entry 6). -/
def Obligations.LoadIndirectY : Prop :=
  decodeOpcode 0xB1#8 = some .ldaIndY ∧ operandCount .ldaIndY = 1 ∧
  (∀ s : State, s.pc ≠ 0xFFFF#16 → ∀ ptr addr : Nat,
    ptr = ((s.mem.byteAt s.pc.toNat).toNat + s.y.toNat) % 256 →
    addr = (s.mem.byteAt ((ptr + 1) % 256)).toNat * 256 + (s.mem.byteAt ptr).toNat →
    (addr ≠ 0xFFFF → ∀ v : Byte, v = s.mem.byteAt addr →
      exec .ldaIndY s = .next { s with a := v, p := setZeroNegative v s.p, pc := add16 s.pc 1#16 } ∧
        FlagsFrom v s.p (setZeroNegative v s.p)) ∧
    (addr = 0xFFFF → ∃ t, exec .ldaIndY s = .next t ∧ t.FaultedBy (.addressRange 0xFFFF#16))) ∧
  (∀ s : State, s.pc = 0xFFFF#16 → ∃ t, exec .ldaIndY s = .next t ∧ t.FaultedBy (.addressRange 0xFFFF#16))

/-- The frame of the load family (43_load_accumulator.md R165): `A`, the two flags and `pc` may change; run and cause
change only by the entry of AddressRange. -/
def Obligations.LoadFrame : Prop :=
  ∀ (i : Instr) (s t : State), modeOf i ≠ .none → exec i s = .next t →
    t.x = s.x ∧ t.y = s.y ∧ reservedBits t.p = reservedBits s.p ∧ (∀ c, t.mem.byteAt c = s.mem.byteAt c) ∧
    ((t.run = s.run ∧ t.cause = s.cause) ∨ t.FaultedBy (.addressRange 0xFFFF#16))

/-! ### Transfer, increment, terminate, and every other byte -/

/-- 44_transfer_increment.md R180: every state, no exception, no advance beyond the fetch. -/
def Obligations.TransferAccumulatorToX : Prop :=
  decodeOpcode 0xAA#8 = some .tax ∧ modeOf .tax = .none ∧
  ∀ s : State, exec .tax s = .next { s with x := s.a, p := setZeroNegative s.a s.p } ∧
    FlagsFrom s.a s.p (setZeroNegative s.a s.p)

/-- 44_transfer_increment.md R181: the sum is taken from the old `X`, wraps modulo 256, and the flags are those of the new
`X`. -/
def Obligations.IncrementX : Prop :=
  decodeOpcode 0xE8#8 = some .inx ∧ modeOf .inx = .none ∧
  ∀ s : State, ∃ t, exec .inx s = .next t ∧ t = { s with x := t.x, p := t.p } ∧
    t.x.toNat = (s.x.toNat + 1) % 256 ∧ zeroFlag t.p = decide (s.x = 0xFF#8) ∧
    negativeFlag t.p = decide (0x7F ≤ s.x.toNat ∧ s.x.toNat ≤ 0xFE) ∧ reservedBits t.p = reservedBits s.p

/-- The frame of the register instructions and of terminate (R180, R181, R190): which registers, flags and bytes of memory
each leaves as they were. -/
def Obligations.RegisterInstructionFrames : Prop :=
  (∀ (i : Instr) (s t : State), i = .tax ∨ i = .inx → exec i s = .next t →
    t.a = s.a ∧ t.y = s.y ∧ t.pc = s.pc ∧ t.run = s.run ∧ t.cause = s.cause ∧ reservedBits t.p = reservedBits s.p ∧
    ∀ c, t.mem.byteAt c = s.mem.byteAt c) ∧
  (∀ s t : State, exec .brk s = .next t →
    t.a = s.a ∧ t.x = s.x ∧ t.y = s.y ∧ t.p = s.p ∧ t.pc = s.pc ∧ ∀ c, t.mem.byteAt c = s.mem.byteAt c)

/-- 45_terminate.md R190 (the `pc` after it is the spec's decision D11, log entry 9): the handler halts the machine with
cause Terminated and does nothing further; so a step that fetches 0x00 ends the run with `pc` one past it. -/
def Obligations.TerminateHalts : Prop :=
  (∀ s : State, exec .brk s = .next { s with run := .halted, cause := .terminated }) ∧
  (∀ s : State, s.run = .running → s.pc ≠ 0xFFFF#16 → s.mem.byteAt s.pc.toNat = 0x00#8 →
    step s = .next { s with pc := add16 s.pc 1#16, run := .halted, cause := .terminated })

/-- 45_terminate.md R191, 60_exceptions.md R201, 30_encoding.md R88: a byte that is none of the eleven is never a
no-operation; the run stops with the byte itself recorded. -/
def Obligations.OtherBytesAreFatal : Prop :=
  ∀ (s : State) (b : Byte), s.run = .running → s.pc ≠ 0xFFFF#16 → b = s.mem.byteAt s.pc.toNat →
    b ∉ [0x00#8, 0xA1#8, 0xA5#8, 0xA9#8, 0xAA#8, 0xAD#8, 0xB1#8, 0xB5#8, 0xB9#8, 0xBD#8, 0xE8#8] →
    ∃ t, step s = .next t ∧ t.FaultedBy (.unimplementedInstruction b)

/-! ### The step -/

/-- 40_fetch_decode_execute.md R110, R111, R112: where the byte at `pc` decodes to an instruction, the step is its handler
on the state with `pc` one further; in Halted the step changes nothing (DESIGN CHOICE, log entry 8). -/
def Obligations.StepRunsTheDecodedInstruction : Prop :=
  (∀ (s : State) (i : Instr), s.run = .running → s.pc ≠ 0xFFFF#16 → decodeOpcode (s.mem.byteAt s.pc.toNat) = some i →
    step s = exec i { s with pc := add16 s.pc 1#16 }) ∧
  (∀ s : State, s.run = .halted → step s = .next s)

/-- 40_fetch_decode_execute.md R113: the opcode byte selects exactly one handler by equality on all eight bits, and a byte
that selects none raises UnimplementedInstruction. -/
def Obligations.DispatchSelectsOneHandler : Prop :=
  ∀ (s : State) (b : Byte), s.run = .running → s.pc ≠ 0xFFFF#16 → b = s.mem.byteAt s.pc.toNat →
    (∀ i : Instr, b = opcodeOf i → step s = exec i (s.advance 1#16)) ∧
    (∀ i j : Instr, b = opcodeOf i → b = opcodeOf j → i = j) ∧
    ((∀ i : Instr, b ≠ opcodeOf i) → ∃ t, step s = .next t ∧ t.FaultedBy (.unimplementedInstruction b))

/-- 40_fetch_decode_execute.md R111 (the unchanged `pc` is the spec's inference): a fetch at 0xFFFF raises AddressRange and
nothing but run and cause has changed. -/
def Obligations.FetchAtTheUnbackedAddressFaults : Prop :=
  ∀ s : State, s.run = .running → s.pc = 0xFFFF#16 →
    step s = .next { s with run := .halted, cause := .fault (.addressRange 0xFFFF#16) }

/-- 60_exceptions.md R205: the entry of a fatal condition stops the run, records the condition and redirects nothing. -/
def Obligations.FatalEntryRecordsAndStops : Prop :=
  ∀ (s : State) (f : Fault), (s.raise f).FaultedBy f ∧ (s.raise f).pc = s.pc ∧ (s.raise f).a = s.a ∧ (s.raise f).x = s.x ∧
    (s.raise f).y = s.y ∧ (s.raise f).p = s.p ∧ (s.raise f).mem = s.mem

/-- 00_scope.md R14, 40_fetch_decode_execute.md R117, 60_exceptions.md R218: every step answers a next state, and from a
Running state it is Running still, or Terminated, or ended by a fatal condition a step can raise. -/
def Obligations.StepEndsInOneOfThreeWays : Prop :=
  ∀ s : State, s.cause = .none →
    ∃ t, step s = .next t ∧
      (s.run = .running → (t.run = .running ∧ t.cause = .none) ∨ t.Final ∨ ∃ f, t.FaultedBy f ∧ f.ofStep = true)

/-- 70_reset_and_hazards.md R243: a run is terminated exactly by fetching the byte 0x00 as an opcode. -/
def Obligations.OnlyTheZeroByteTerminates : Prop :=
  ∀ s t : State, s.run = .running → s.cause = .none → step s = .next t →
    (t.Final ↔ s.pc ≠ 0xFFFF#16 ∧ s.mem.byteAt s.pc.toNat = 0x00#8)

/-- 60_exceptions.md R203: the three points at which a step raises AddressRange, and no other. -/
def Obligations.AddressRangeExactlyAtThreePoints : Prop :=
  ∀ s t : State, s.run = .running → s.cause = .none → step s = .next t →
    (t.cause = .fault (.addressRange 0xFFFF#16) ↔
      s.pc = 0xFFFF#16 ∨
      ∃ i, decodeOpcode (s.mem.byteAt s.pc.toNat) = some i ∧ modeOf i ≠ .none ∧
        (s.pc = 0xFFFE#16 ∨ (operandCount i = 2 ∧ s.pc = 0xFFFD#16) ∨
          resolve (modeOf i) (s.advance 1#16) = .ok 0xFFFF#16))

/-- 40_fetch_decode_execute.md R114, R118, R119 and 10_state.md R25: a step that leaves the machine Running has moved `pc`
by the length of its instruction, without wrapping. -/
def Obligations.PcMovesByTheInstructionLength : Prop :=
  ∀ s t : State, s.run = .running → step s = .next t → t.run = .running →
    ∃ i, decodeOpcode (s.mem.byteAt s.pc.toNat) = some i ∧ t.pc.toNat = s.pc.toNat + lengthOf i

/-- 60_exceptions.md R206, R207 (both the spec's inference from the order of the loop; D12 keeps claims from resting on a
faulted state's registers, log entry 7): the instruction that faulted has written nothing but the generic advance. -/
def Obligations.FaultsArePrecise : Prop :=
  ∀ (s t : State) (f : Fault), s.run = .running → step s = .next t → t.FaultedBy f →
    t.a = s.a ∧ t.x = s.x ∧ t.y = s.y ∧ t.p = s.p ∧ t.mem = s.mem ∧
    (s.pc = 0xFFFF#16 → t.pc = s.pc) ∧ (s.pc ≠ 0xFFFF#16 → t.pc = add16 s.pc 1#16)

/-! ### Whole-machine rules -/

/-- 20_memory.md R67, 10_state.md R23, R28: no step writes memory, index-Y or a reserved status bit. -/
def Obligations.NoStepWritesMemoryIndexYOrReservedBits : Prop :=
  ∀ s t : State, step s = .next t → t.mem = s.mem ∧ t.y = s.y ∧ reservedBits t.p = reservedBits s.p

/-- 10_state.md R29, 60_exceptions.md R200, R210 and the canonical form of memory: the invariant of every step, from every
state that has it. -/
def Obligations.InvariantKeptByEveryStep : Prop :=
  ∀ s t : State, s.Inv → step s = .next t → t.Inv

/-- The invariant holds after reset, and at power-on whatever the parameters (70_reset_and_hazards.md R233). -/
def Obligations.InvariantAtResetAndPowerOn : Prop :=
  State.reset.Inv ∧
  ∀ (a x y p : Byte) (pc : Word) (m : Memory), m.wf = true → (State.powerOn a x y p pc m).Inv

/-- The same invariant, kept by every command of the host, runs and loads of any image among them. -/
def Obligations.InvariantKeptByEveryCommand : Prop :=
  ∀ (c : Command) (s : State), s.Inv → (command c s).2.Inv

/-- 10_state.md R28 (the spec's inference; the numbers rest on D3, log entry 5): from a legal status a step leaves a legal
one, and `reset` leaves 0x00 whatever it was. -/
def Obligations.StatusStaysLegal : Prop :=
  (∀ s t : State, s.StatusLegal → step s = .next t → t.StatusLegal) ∧
  (∀ s : State, s.run = .halted → (command .reset s).2.p = 0x00#8)

/-- 40_fetch_decode_execute.md R119: every run ends, within 0x10000 - p0 steps. -/
def Obligations.EveryRunEnds : Prop :=
  ∀ s : State, (runLoop (0x10000 - s.pc.toNat) s).run = .halted

/-- 70_reset_and_hazards.md R236, R243 and 60_exceptions.md R200: the host's `run()` always comes back Halted, Terminated or
with a condition a step can raise, and has touched neither memory nor index-Y. -/
def Obligations.RunComesBackHalted : Prop :=
  ∀ s : State, s.run = .halted →
    ∃ t, command .run s = (.done, t) ∧ (t.Final ∨ ∃ f, t.FaultedBy f ∧ f.ofStep = true) ∧ t.mem = s.mem ∧ t.y = s.y

/-- 20_memory.md R68: the addresses a step accesses, for each row of the table, where every operand byte exists. -/
def Obligations.AccessSequenceOfEachRow : Prop :=
  ∀ (s : State) (i : Instr) (b c q : Byte), s.run = .running → s.pc.toNat + 2 < 65535 →
    decodeOpcode (s.mem.byteAt s.pc.toNat) = some i → b = s.mem.byteAt (s.pc.toNat + 1) →
    c = s.mem.byteAt (s.pc.toNat + 2) → q = (if i = .ldaIndX then add8 b s.x else add8 b s.y) →
    stepAccesses s =
      match modeOf i with
      | .none => [s.pc]
      | .immediate => [s.pc, add16 s.pc 1#16]
      | .zeroPage => [s.pc, add16 s.pc 1#16, zext16 b]
      | .zeroPageX => [s.pc, add16 s.pc 1#16, zext16 (add8 b s.x)]
      | .zeroPageY => [s.pc, add16 s.pc 1#16, zext16 (add8 b s.y)]
      | .absolute => [s.pc, add16 s.pc 1#16, add16 s.pc 2#16, joinBytes c b]
      | .absoluteX => [s.pc, add16 s.pc 1#16, add16 s.pc 2#16, add16 (joinBytes c b) (zext16 s.x)]
      | .absoluteY => [s.pc, add16 s.pc 1#16, add16 s.pc 2#16, add16 (joinBytes c b) (zext16 s.y)]
      | .indirectX | .indirectY =>
        [s.pc, add16 s.pc 1#16, zext16 q, zext16 (add8 q 1#8),
          joinBytes (s.mem.byteAt (add8 q 1#8).toNat) (s.mem.byteAt q.toNat)]

/-- 20_memory.md R61, R67, R68: a step depends on memory only through the bytes of its access sequence. Changing any other
bytes changes nothing it does. -/
def Obligations.StepReadsOnlyItsAccesses : Prop :=
  ∀ (s t : State) (m' : Memory), (∀ addr ∈ stepAccesses s, memRead m' addr = memRead s.mem addr) → step s = .next t →
    step { s with mem := m' } = .next { t with mem := m' }

/-! ### The host's commands -/

/-- 70_reset_and_hazards.md R230, R231: `A`, `X` and all of `P` zero, `pc` from the vector, everything else (index-Y, memory,
run state, cause) unchanged; it is always carried out. -/
def Obligations.ResetCommand : Prop :=
  ∀ s : State, s.run = .halted →
    command .reset s =
      (.done, { s with a := 0x00#8, x := 0x00#8, p := 0x00#8, pc := joinBytes (s.mem.byteAt 0xFFFD) (s.mem.byteAt 0xFFFC) })

/-- 10_state.md R33, R34: the state after `reset` of a machine in whose memory nothing is listed. `Y` is the model's choice
for Y_INIT (log entry 2) and `pc` follows from its choice for MEM_INIT (log entry 1). -/
def Obligations.StateAfterReset : Prop :=
  State.reset.a = 0x00#8 ∧ State.reset.x = 0x00#8 ∧ State.reset.p = 0x00#8 ∧ State.reset.run = .halted ∧
  State.reset.cause = .none ∧
  ∀ (a x p : Byte) (pc : Word), (command .reset (State.powerOn a x Config.yInit p pc [])).2 = State.reset

/-- 70_reset_and_hazards.md R234, R235 (the bound and the rejection as a whole are decision D8, log entry 10): the image
verbatim from 0x8000, the vector written last, every other byte and every register unchanged; or rejected with
nothing changed. -/
def Obligations.LoadCommand : Prop :=
  ∀ (s : State) (image : List Byte), s.run = .halted → s.mem.wf = true →
    (image.length ≤ 32767 →
      ∃ m', command (.load image) s = (.done, { s with mem := m' }) ∧
        m'.byteAt 0xFFFC = 0x00#8 ∧ m'.byteAt 0xFFFD = 0x80#8 ∧
        (∀ (i : Nat) (h : i < image.length), i ≠ 0x7FFC → i ≠ 0x7FFD → m'.byteAt (0x8000 + i) = image[i]) ∧
        (∀ c, c ≠ 0xFFFC → c ≠ 0xFFFD → c < 0x8000 ∨ 0x8000 + image.length ≤ c → m'.byteAt c = s.mem.byteAt c)) ∧
    (32767 < image.length → command (.load image) s = (.rejected (.oversizedLoad image.length), s))

/-- 70_reset_and_hazards.md R237, R232: after an accepted image the run starts at 0x8000 with `A`, `X` and `P` zero and `Y`
as it was; a rejected image starts nothing (decision D8). -/
def Obligations.LoadAndRunStartsAtTheOrigin : Prop :=
  ∀ (s : State) (image : List Byte), s.run = .halted → s.mem.wf = true →
    (image.length ≤ 32767 →
      ∃ m', (command (.load image) s).2 = { s with mem := m' } ∧
        command (.loadAndRun image) s =
          command .run { s with a := 0x00#8, x := 0x00#8, p := 0x00#8, pc := 0x8000#16, mem := m' }) ∧
    (32767 < image.length → command (.loadAndRun image) s = (.rejected (.oversizedLoad image.length), s))

/-- 20_memory.md R66: what the host writes it reads back, nothing else changes; an access at 0xFFFF is rejected and changes
nothing (decision D13). -/
def Obligations.HostWritesAndReadsBytes : Prop :=
  ∀ (s : State) (addr : Word) (v : Byte), s.run = .halted → s.mem.wf = true →
    (addr ≠ 0xFFFF#16 →
      ∃ m', command (.write addr v) s = (.done, { s with mem := m' }) ∧
        command (.read addr) { s with mem := m' } = (.byte v, { s with mem := m' }) ∧
        ∀ c, c ≠ addr.toNat → m'.byteAt c = s.mem.byteAt c) ∧
    (addr = 0xFFFF#16 →
      command (.write addr v) s = (.rejected (.addressRange 0xFFFF#16), s) ∧
      command (.read addr) s = (.rejected (.addressRange 0xFFFF#16), s))

/-- 70_reset_and_hazards.md R239, R244 (decision D23, log entry 10): while Running the host has no move. -/
def Obligations.NoCommandWhileRunning : Prop :=
  ∀ (c : Command) (s : State), s.run = .running → command c s = (.noMove, s)

/-- 10_state.md R23, 70_reset_and_hazards.md R231, R245: over the whole life of the block, whatever the host commands, in
whatever order, `Y` keeps the value it had. -/
def Obligations.IndexYNeverChanges : Prop :=
  ∀ (cs : List Command) (s : State), (commands cs s).y = s.y
end

