-- ==== Sys2Proof/Laws/Alu.lean ====
section
/-! SUPPORT. What the arithmetic helpers and the flag helpers do, as numbers and as bits. -/

namespace Sys2Proof.Machine

theorem add8_toNat (a b : Byte) : (add8 a b).toNat = (a.toNat + b.toNat) % 2 ^ 8 := BitVec.toNat_add a b

theorem add16_toNat (a b : Word) : (add16 a b).toNat = (a.toNat + b.toNat) % 2 ^ 16 := BitVec.toNat_add a b

theorem zext16_toNat (b : Byte) : (zext16 b).toNat = b.toNat := by
  simp only [zext16, BitVec.toNat_setWidth]
  omega

theorem zext16_lt (b : Byte) : (zext16 b).toNat < 256 := by
  rw [zext16_toNat]
  omega

theorem joinBytes_toNat (hi lo : Byte) : (joinBytes hi lo).toNat = hi.toNat * 256 + lo.toNat := by
  have h := lo.isLt
  simp only [joinBytes, BitVec.toNat_append, Nat.shiftLeft_eq]
  rw [← Nat.shiftLeft_eq, ← Nat.shiftLeft_add_eq_or_of_lt h, Nat.shiftLeft_eq]

theorem lowByte_toNat (w : Word) : (lowByte w).toNat = w.toNat % 256 := by
  simp [lowByte, BitVec.toNat_setWidth]

theorem highByte_toNat (w : Word) : (highByte w).toNat = w.toNat / 256 := by
  have h := w.isLt
  simp only [highByte, BitVec.toNat_setWidth, BitVec.toNat_ushiftRight, Nat.shiftRight_eq_div_pow]
  omega

theorem joinBytes_parts (w : Word) : joinBytes (highByte w) (lowByte w) = w := by
  apply BitVec.eq_of_toNat_eq
  rw [joinBytes_toNat, highByte_toNat, lowByte_toNat]
  omega

/-- A word is unbacked exactly when it is 0xFFFF (20_memory.md R51). -/
theorem memSize_le_iff (w : Word) : ¬ w.toNat < Config.memSize ↔ w = 0xFFFF#16 := by
  constructor
  · intro h
    apply BitVec.eq_of_toNat_eq
    have := w.isLt
    simp only [Config.memSize, BitVec.toNat_ofNat] at *
    omega
  · rintro rfl
    decide

theorem lt_memSize_iff (w : Word) : w.toNat < Config.memSize ↔ w ≠ 0xFFFF#16 := by
  have h := memSize_le_iff w
  tauto

/-- The status byte has one value for each pair of flags once its reserved bits are given. -/
theorem setZeroNegative_eq (v p : Byte) :
    setZeroNegative v p =
      (reservedBits p ||| (if v = 0x00#8 then 0x02#8 else 0x00#8)) ||| (if bit7 v then 0x80#8 else 0x00#8) := by
  have key : ∀ (p : Byte) (z n : Bool), setBit (setBit p 1 z) 7 n =
      (reservedBits p ||| (if z then 0x02#8 else 0x00#8)) ||| (if n then 0x80#8 else 0x00#8) := by
    decide +revert
  have h := key p (decide (v = 0x00#8)) (bit7 v)
  simpa [setZeroNegative, Config.zBit, Config.nBit] using h

theorem zeroFlag_setZeroNegative (v p : Byte) : zeroFlag (setZeroNegative v p) = decide (v = 0x00#8) := by
  have key : ∀ (p : Byte) (z n : Bool), zeroFlag (setBit (setBit p 1 z) 7 n) = z := by decide +revert
  exact key p _ _

theorem negativeFlag_setZeroNegative (v p : Byte) : negativeFlag (setZeroNegative v p) = bit7 v := by
  have key : ∀ (p : Byte) (z n : Bool), negativeFlag (setBit (setBit p 1 z) 7 n) = n := by decide +revert
  exact key p _ _

theorem reservedBits_setZeroNegative (v p : Byte) : reservedBits (setZeroNegative v p) = reservedBits p := by
  have key : ∀ (p : Byte) (z n : Bool), reservedBits (setBit (setBit p 1 z) 7 n) = reservedBits p := by
    decide +revert
  exact key p _ _

end Sys2Proof.Machine
end

