-- ==== Sys2Proof/Laws/Memory.lean ====
section
/-! SUPPORT. Memory: reading after a store, the canonical form and that every memory operation keeps it, and what the
checked accessors answer. -/

namespace Sys2Proof.Machine

/-- Below the first listed address nothing is listed. -/
theorem Memory.byteAt_of_lt : ∀ (m : Memory) {lo a : Nat}, m.wfFrom lo = true → a < lo → m.byteAt a = Config.memInit a
  | [], _, _, _, _ => rfl
  | (b, w) :: m, lo, a, h, hlt => by
    simp only [Memory.wfFrom, Bool.and_eq_true, decide_eq_true_eq] at h
    obtain ⟨⟨⟨hlo, -⟩, -⟩, hm⟩ := h
    rw [Memory.byteAt, if_neg (by omega)]
    exact Memory.byteAt_of_lt m hm (by omega)

theorem Memory.wfFrom_mono : ∀ (m : Memory) {lo lo' : Nat}, m.wfFrom lo = true → lo' ≤ lo → m.wfFrom lo' = true
  | [], _, _, _, _ => rfl
  | (b, w) :: m, lo, lo', h, hle => by
    simp only [Memory.wfFrom, Bool.and_eq_true, decide_eq_true_eq] at h ⊢
    exact ⟨⟨⟨by omega, h.1.1.2⟩, h.1.2⟩, h.2⟩

theorem Memory.store_wfFrom : ∀ (m : Memory) {lo a : Nat} {v : Byte}, m.wfFrom lo = true → lo ≤ a → a < Config.memSize →
    (m.store a v).wfFrom lo = true
  | [], lo, a, v, _, hlo, ha => by
    by_cases hv : v = Config.memInit a <;> simp [Memory.store, Memory.wfFrom, hv, hlo, ha]
  | (b, w) :: m, lo, a, v, h, hlo, ha => by
    simp only [Memory.wfFrom, Bool.and_eq_true, decide_eq_true_eq] at h
    obtain ⟨⟨⟨hb, hbs⟩, hw⟩, hm⟩ := h
    by_cases h1 : a < b
    · by_cases hv : v = Config.memInit a
      · simp [Memory.store, Memory.wfFrom, h1, hv, hb, hbs, hw, hm]
      · simp [Memory.store, Memory.wfFrom, h1, hv, hbs, hw, hm, hlo, ha, Nat.succ_le_of_lt h1]
    · by_cases h2 : a = b
      · subst h2
        by_cases hv : v = Config.memInit a
        · simpa [Memory.store, hv] using Memory.wfFrom_mono m hm (by omega)
        · simp [Memory.store, Memory.wfFrom, hv, hlo, ha, hm]
      · have ih := Memory.store_wfFrom m (v := v) hm (by omega : b + 1 ≤ a) ha
        simp [Memory.store, Memory.wfFrom, h1, h2, hb, hbs, hw, ih]

theorem Memory.store_wf {m : Memory} {a : Nat} {v : Byte} (h : m.wf = true) (ha : a < Config.memSize) :
    (m.store a v).wf = true :=
  Memory.store_wfFrom m h (Nat.zero_le a) ha

theorem Memory.byteAt_store_same_from : ∀ (m : Memory) {lo : Nat} (a : Nat) (v : Byte), m.wfFrom lo = true →
    (m.store a v).byteAt a = v
  | [], _, a, v, _ => by
    by_cases hv : v = Config.memInit a <;> simp [Memory.store, Memory.byteAt, hv]
  | (b, w) :: m, lo, a, v, h => by
    simp only [Memory.wfFrom, Bool.and_eq_true, decide_eq_true_eq] at h
    obtain ⟨-, hm⟩ := h
    by_cases h1 : a < b
    · by_cases hv : v = Config.memInit a
      · have h3 := Memory.byteAt_of_lt m hm (by omega : a < b + 1)
        have h4 : a ≠ b := by omega
        simp [Memory.store, Memory.byteAt, h1, hv, h3, h4]
      · simp [Memory.store, Memory.byteAt, h1, hv]
    · by_cases h2 : a = b
      · subst h2
        by_cases hv : v = Config.memInit a
        · have h3 := Memory.byteAt_of_lt m hm (by omega : a < a + 1)
          simp [Memory.store, hv, h3]
        · simp [Memory.store, Memory.byteAt, hv]
      · have ih := Memory.byteAt_store_same_from m a v hm
        simp [Memory.store, Memory.byteAt, h1, h2, ih]

/-- Reading the address just stored gives the byte stored. -/
theorem Memory.byteAt_store_same {m : Memory} (h : m.wf = true) (a : Nat) (v : Byte) : (m.store a v).byteAt a = v :=
  Memory.byteAt_store_same_from m a v h

/-- A store leaves every other address as it was. -/
theorem Memory.byteAt_store_other : ∀ (m : Memory) {a c : Nat} (v : Byte), c ≠ a → (m.store a v).byteAt c = m.byteAt c
  | [], a, c, v, hc => by
    by_cases hv : v = Config.memInit a <;> simp [Memory.store, Memory.byteAt, hv, hc]
  | (b, w) :: m, a, c, v, hc => by
    by_cases h1 : a < b
    · by_cases hv : v = Config.memInit a <;> simp [Memory.store, Memory.byteAt, h1, hv, hc]
    · by_cases h2 : a = b
      · subst h2
        by_cases hv : v = Config.memInit a <;> simp [Memory.store, Memory.byteAt, hv, hc]
      · have ih := Memory.byteAt_store_other m v hc
        by_cases h3 : c = b <;> simp [Memory.store, Memory.byteAt, h1, h2, h3, ih]

theorem memRead_ok {m : Memory} {addr : Word} (h : addr.toNat < Config.memSize) :
    memRead m addr = .ok (m.byteAt addr.toNat) := if_pos h

theorem memRead_backed {m : Memory} {addr : Word} (h : addr ≠ 0xFFFF#16) :
    memRead m addr = .ok (m.byteAt addr.toNat) := memRead_ok ((lt_memSize_iff addr).2 h)

theorem memRead_unbacked (m : Memory) : memRead m 0xFFFF#16 = .error (.addressRange 0xFFFF#16) := rfl

/-- All that `MemRead` can answer. -/
theorem memRead_cases (m : Memory) (addr : Word) :
    (addr ≠ 0xFFFF#16 ∧ memRead m addr = .ok (m.byteAt addr.toNat)) ∨
    (addr = 0xFFFF#16 ∧ memRead m addr = .error (.addressRange 0xFFFF#16)) := by
  by_cases h : addr = 0xFFFF#16
  · exact .inr ⟨h, by rw [h]; rfl⟩
  · exact .inl ⟨h, memRead_backed h⟩

theorem memRead_zext16 (m : Memory) (b : Byte) : memRead m (zext16 b) = .ok (m.byteAt b.toNat) := by
  have h := zext16_lt b
  rw [memRead_ok (by simp only [Config.memSize]; omega), zext16_toNat]

theorem memWrite_ok {m : Memory} {addr : Word} {v : Byte} (h : addr.toNat < Config.memSize) :
    memWrite m addr v = .ok (m.store addr.toNat v) := if_pos h

theorem memWrite_unbacked (m : Memory) (v : Byte) : memWrite m 0xFFFF#16 v = .error (.addressRange 0xFFFF#16) := rfl

/-- All that `MemWrite` can answer. -/
theorem memWrite_cases (m : Memory) (addr : Word) (v : Byte) :
    (addr.toNat < Config.memSize ∧ memWrite m addr v = .ok (m.store addr.toNat v)) ∨
    (addr = 0xFFFF#16 ∧ memWrite m addr v = .error (.addressRange 0xFFFF#16)) := by
  by_cases h : addr.toNat < Config.memSize
  · exact .inl ⟨h, memWrite_ok h⟩
  · have h' := (memSize_le_iff addr).1 h
    exact .inr ⟨h', by rw [h']; rfl⟩

theorem memWrite_wf {m m' : Memory} {addr : Word} {v : Byte} (hm : m.wf = true) (h : memWrite m addr v = .ok m') :
    m'.wf = true := by
  rcases memWrite_cases m addr v with ⟨ha, he⟩ | ⟨-, he⟩
  · rw [he] at h
    cases h
    exact Memory.store_wf hm ha
  · rw [he] at h
    cases h

/-- All that `write16` can answer (20_memory.md R54): both bytes stored, or, where the second address is 0xFFFF, the
first alone, or, where the first is, none. -/
theorem write16_cases (m : Memory) (addr w : Word) :
    (addr.toNat < Config.memSize ∧ (add16 addr 1#16).toNat < Config.memSize ∧
      write16 m addr w =
        ((m.store addr.toNat (lowByte w)).store (add16 addr 1#16).toNat (highByte w), none)) ∨
    (addr.toNat < Config.memSize ∧ add16 addr 1#16 = 0xFFFF#16 ∧
      write16 m addr w = (m.store addr.toNat (lowByte w), some (.addressRange 0xFFFF#16))) ∨
    (addr = 0xFFFF#16 ∧ write16 m addr w = (m, some (.addressRange 0xFFFF#16))) := by
  unfold write16
  rcases memWrite_cases m addr (lowByte w) with ⟨h1, e1⟩ | ⟨h1, e1⟩
  · rcases memWrite_cases (m.store addr.toNat (lowByte w)) (add16 addr 1#16) (highByte w) with ⟨h2, e2⟩ | ⟨h2, e2⟩
    · exact .inl ⟨h1, h2, by simp only [e1, e2]⟩
    · exact .inr (.inl ⟨h1, h2, by simp only [e1, e2]⟩)
  · exact .inr (.inr ⟨h1, by simp only [e1]⟩)

theorem write16_wf {m : Memory} (hm : m.wf = true) (addr w : Word) : (write16 m addr w).1.wf = true := by
  rcases write16_cases m addr w with ⟨h1, h2, e⟩ | ⟨h1, -, e⟩ | ⟨-, e⟩ <;> rw [e]
  · exact Memory.store_wf (Memory.store_wf hm h1) h2
  · exact Memory.store_wf hm h1
  · exact hm

theorem Memory.storeBytes_wf : ∀ (bs : List Byte) {m : Memory} (a : Nat), m.wf = true → (m.storeBytes a bs).wf = true
  | [], _, _, hm => hm
  | b :: bs, m, a, hm => by
    apply Memory.storeBytes_wf bs
    by_cases h : a < Config.memSize
    · simpa [h] using Memory.store_wf hm h
    · simpa [h] using hm

/-- A sequence of stores leaves every address below its first one as it was. -/
theorem Memory.byteAt_storeBytes_below : ∀ (bs : List Byte) (m : Memory) {a c : Nat}, c < a →
    (m.storeBytes a bs).byteAt c = m.byteAt c
  | [], _, _, _, _ => rfl
  | b :: bs, m, a, c, hc => by
    rw [Memory.storeBytes, Memory.byteAt_storeBytes_below bs _ (by omega)]
    by_cases h : a < Config.memSize
    · simpa [h] using Memory.byteAt_store_other m b (by omega : c ≠ a)
    · simp [h]

/-- A sequence of stores leaves every address past its last one as it was. -/
theorem Memory.byteAt_storeBytes_above : ∀ (bs : List Byte) (m : Memory) {a c : Nat}, a + bs.length ≤ c →
    (m.storeBytes a bs).byteAt c = m.byteAt c
  | [], _, _, _, _ => rfl
  | b :: bs, m, a, c, hc => by
    have hc' : a + 1 + bs.length ≤ c := by
      simp only [List.length_cons] at hc
      omega
    rw [Memory.storeBytes, Memory.byteAt_storeBytes_above bs _ hc']
    by_cases h : a < Config.memSize
    · simpa [h] using Memory.byteAt_store_other m b (by omega : c ≠ a)
    · simp [h]

/-- Each stored address below `MEM_SIZE` reads as the byte stored there. -/
theorem Memory.byteAt_storeBytes_at : ∀ (bs : List Byte) {m : Memory} (a : Nat) {i : Nat} (hi : i < bs.length), m.wf = true →
    a + i < Config.memSize → (m.storeBytes a bs).byteAt (a + i) = bs[i]
  | b :: bs, m, a, 0, _, hm, ha => by
    have ha' : a < Config.memSize := ha
    have hlt : a + 0 < a + 1 := by omega
    rw [Memory.storeBytes, Memory.byteAt_storeBytes_below bs _ hlt]
    simpa [ha'] using Memory.byteAt_store_same hm a b
  | b :: bs, m, a, i + 1, hi, hm, ha => by
    have hm' : (if a < Config.memSize then m.store a b else m).wf = true := by
      by_cases h : a < Config.memSize
      · simpa [h] using Memory.store_wf hm h
      · simpa [h] using hm
    have hi' : i < bs.length := by simpa using hi
    have ih := Memory.byteAt_storeBytes_at bs (a + 1) hi' hm' (by omega)
    rw [Memory.storeBytes, (by omega : a + (i + 1) = a + 1 + i), ih]
    rfl

end Sys2Proof.Machine
end

