-- ==== Sys2Proof/Laws/State.lean ====
section
/-! SUPPORT. One lemma per field per state update, each true by unfolding, so that no proof unfolds a record update. -/

namespace Sys2Proof.Machine

variable (s : State)

@[simp] theorem State.setA_a (v : Byte) : (s.setA v).a = v := rfl
@[simp] theorem State.setA_x (v : Byte) : (s.setA v).x = s.x := rfl
@[simp] theorem State.setA_y (v : Byte) : (s.setA v).y = s.y := rfl
@[simp] theorem State.setA_p (v : Byte) : (s.setA v).p = s.p := rfl
@[simp] theorem State.setA_pc (v : Byte) : (s.setA v).pc = s.pc := rfl
@[simp] theorem State.setA_run (v : Byte) : (s.setA v).run = s.run := rfl
@[simp] theorem State.setA_cause (v : Byte) : (s.setA v).cause = s.cause := rfl
@[simp] theorem State.setA_mem (v : Byte) : (s.setA v).mem = s.mem := rfl

@[simp] theorem State.setX_a (v : Byte) : (s.setX v).a = s.a := rfl
@[simp] theorem State.setX_x (v : Byte) : (s.setX v).x = v := rfl
@[simp] theorem State.setX_y (v : Byte) : (s.setX v).y = s.y := rfl
@[simp] theorem State.setX_p (v : Byte) : (s.setX v).p = s.p := rfl
@[simp] theorem State.setX_pc (v : Byte) : (s.setX v).pc = s.pc := rfl
@[simp] theorem State.setX_run (v : Byte) : (s.setX v).run = s.run := rfl
@[simp] theorem State.setX_cause (v : Byte) : (s.setX v).cause = s.cause := rfl
@[simp] theorem State.setX_mem (v : Byte) : (s.setX v).mem = s.mem := rfl

@[simp] theorem State.setP_a (v : Byte) : (s.setP v).a = s.a := rfl
@[simp] theorem State.setP_x (v : Byte) : (s.setP v).x = s.x := rfl
@[simp] theorem State.setP_y (v : Byte) : (s.setP v).y = s.y := rfl
@[simp] theorem State.setP_p (v : Byte) : (s.setP v).p = v := rfl
@[simp] theorem State.setP_pc (v : Byte) : (s.setP v).pc = s.pc := rfl
@[simp] theorem State.setP_run (v : Byte) : (s.setP v).run = s.run := rfl
@[simp] theorem State.setP_cause (v : Byte) : (s.setP v).cause = s.cause := rfl
@[simp] theorem State.setP_mem (v : Byte) : (s.setP v).mem = s.mem := rfl

@[simp] theorem State.advance_a (n : Word) : (s.advance n).a = s.a := rfl
@[simp] theorem State.advance_x (n : Word) : (s.advance n).x = s.x := rfl
@[simp] theorem State.advance_y (n : Word) : (s.advance n).y = s.y := rfl
@[simp] theorem State.advance_p (n : Word) : (s.advance n).p = s.p := rfl
@[simp] theorem State.advance_pc (n : Word) : (s.advance n).pc = add16 s.pc n := rfl
@[simp] theorem State.advance_run (n : Word) : (s.advance n).run = s.run := rfl
@[simp] theorem State.advance_cause (n : Word) : (s.advance n).cause = s.cause := rfl
@[simp] theorem State.advance_mem (n : Word) : (s.advance n).mem = s.mem := rfl

@[simp] theorem State.raise_a (f : Fault) : (s.raise f).a = s.a := rfl
@[simp] theorem State.raise_x (f : Fault) : (s.raise f).x = s.x := rfl
@[simp] theorem State.raise_y (f : Fault) : (s.raise f).y = s.y := rfl
@[simp] theorem State.raise_p (f : Fault) : (s.raise f).p = s.p := rfl
@[simp] theorem State.raise_pc (f : Fault) : (s.raise f).pc = s.pc := rfl
@[simp] theorem State.raise_run (f : Fault) : (s.raise f).run = .halted := rfl
@[simp] theorem State.raise_cause (f : Fault) : (s.raise f).cause = .fault f := rfl
@[simp] theorem State.raise_mem (f : Fault) : (s.raise f).mem = s.mem := rfl

@[simp] theorem State.terminate_a : (s.terminate).a = s.a := rfl
@[simp] theorem State.terminate_x : (s.terminate).x = s.x := rfl
@[simp] theorem State.terminate_y : (s.terminate).y = s.y := rfl
@[simp] theorem State.terminate_p : (s.terminate).p = s.p := rfl
@[simp] theorem State.terminate_pc : (s.terminate).pc = s.pc := rfl
@[simp] theorem State.terminate_run : (s.terminate).run = .halted := rfl
@[simp] theorem State.terminate_cause : (s.terminate).cause = .terminated := rfl
@[simp] theorem State.terminate_mem : (s.terminate).mem = s.mem := rfl

@[simp] theorem State.beginRun_a : (s.beginRun).a = s.a := rfl
@[simp] theorem State.beginRun_x : (s.beginRun).x = s.x := rfl
@[simp] theorem State.beginRun_y : (s.beginRun).y = s.y := rfl
@[simp] theorem State.beginRun_p : (s.beginRun).p = s.p := rfl
@[simp] theorem State.beginRun_pc : (s.beginRun).pc = s.pc := rfl
@[simp] theorem State.beginRun_run : (s.beginRun).run = .running := rfl
@[simp] theorem State.beginRun_cause : (s.beginRun).cause = .none := rfl
@[simp] theorem State.beginRun_mem : (s.beginRun).mem = s.mem := rfl

@[simp] theorem State.setZN_a (v : Byte) : (s.setZN v).a = s.a := rfl
@[simp] theorem State.setZN_x (v : Byte) : (s.setZN v).x = s.x := rfl
@[simp] theorem State.setZN_y (v : Byte) : (s.setZN v).y = s.y := rfl
@[simp] theorem State.setZN_p (v : Byte) : (s.setZN v).p = setZeroNegative v s.p := rfl
@[simp] theorem State.setZN_pc (v : Byte) : (s.setZN v).pc = s.pc := rfl
@[simp] theorem State.setZN_run (v : Byte) : (s.setZN v).run = s.run := rfl
@[simp] theorem State.setZN_cause (v : Byte) : (s.setZN v).cause = s.cause := rfl
@[simp] theorem State.setZN_mem (v : Byte) : (s.setZN v).mem = s.mem := rfl

@[simp] theorem State.loaded_a (v : Byte) (n : Word) : (s.loaded v n).a = v := rfl
@[simp] theorem State.loaded_x (v : Byte) (n : Word) : (s.loaded v n).x = s.x := rfl
@[simp] theorem State.loaded_y (v : Byte) (n : Word) : (s.loaded v n).y = s.y := rfl
@[simp] theorem State.loaded_p (v : Byte) (n : Word) : (s.loaded v n).p = setZeroNegative v s.p := rfl
@[simp] theorem State.loaded_pc (v : Byte) (n : Word) : (s.loaded v n).pc = add16 s.pc n := rfl
@[simp] theorem State.loaded_run (v : Byte) (n : Word) : (s.loaded v n).run = s.run := rfl
@[simp] theorem State.loaded_cause (v : Byte) (n : Word) : (s.loaded v n).cause = s.cause := rfl
@[simp] theorem State.loaded_mem (v : Byte) (n : Word) : (s.loaded v n).mem = s.mem := rfl

@[simp] theorem State.writeX_a (v : Byte) : (s.writeX v).a = s.a := rfl
@[simp] theorem State.writeX_x (v : Byte) : (s.writeX v).x = v := rfl
@[simp] theorem State.writeX_y (v : Byte) : (s.writeX v).y = s.y := rfl
@[simp] theorem State.writeX_p (v : Byte) : (s.writeX v).p = setZeroNegative v s.p := rfl
@[simp] theorem State.writeX_pc (v : Byte) : (s.writeX v).pc = s.pc := rfl
@[simp] theorem State.writeX_run (v : Byte) : (s.writeX v).run = s.run := rfl
@[simp] theorem State.writeX_cause (v : Byte) : (s.writeX v).cause = s.cause := rfl
@[simp] theorem State.writeX_mem (v : Byte) : (s.writeX v).mem = s.mem := rfl

end Sys2Proof.Machine
end

