-- ==== Sys2Proof/Laws/Operands.lean ====
section
/-! SUPPORT. What 16-bit reads, pointer reads, the resolver and the data read can answer, and that they depend on nothing but
`pc`, `X`, `Y` and the bytes at the addresses they access. -/

namespace Sys2Proof.Machine

/-- The address after a backed one, as a number. -/
theorem add16_one_toNat {w : Word} (h : w ≠ 0xFFFF#16) : (add16 w 1#16).toNat = w.toNat + 1 := by
  have := (lt_memSize_iff w).2 h
  simp only [Config.memSize] at this
  rw [add16_toNat]
  simp only [BitVec.toNat_ofNat]
  omega

theorem word_eq_iff (w : Word) (n : Nat) (h : n < 2 ^ 16) : w = BitVec.ofNat 16 n ↔ w.toNat = n := by
  constructor
  · rintro rfl
    simp only [BitVec.toNat_ofNat]
    omega
  · intro hw
    apply BitVec.eq_of_toNat_eq
    simp only [BitVec.toNat_ofNat]
    omega

theorem lt_of_ne_top {w : Word} (h1 : w ≠ 0xFFFF#16) (h2 : w ≠ 0xFFFE#16) : w.toNat + 1 < Config.memSize := by
  have h := (lt_memSize_iff w).2 h1
  have h3 := mt (word_eq_iff w 0xFFFE (by decide)).2 h2
  simp only [Config.memSize] at *
  omega

/-- All that `read16` can answer: the little-endian word where both bytes exist, else AddressRange(0xFFFF). -/
theorem read16_cases (m : Memory) (addr : Word) :
    (addr.toNat + 1 < Config.memSize ∧
      read16 m addr = .ok (joinBytes (m.byteAt (addr.toNat + 1)) (m.byteAt addr.toNat))) ∨
    ((addr = 0xFFFE#16 ∨ addr = 0xFFFF#16) ∧ read16 m addr = .error (.addressRange 0xFFFF#16)) := by
  by_cases h1 : addr = 0xFFFF#16
  · exact .inr ⟨.inr h1, by rw [h1]; rfl⟩
  · by_cases h2 : addr = 0xFFFE#16
    · exact .inr ⟨.inl h2, by rw [h2]; rfl⟩
    · have h := lt_of_ne_top h1 h2
      have hn := add16_one_toNat h1
      have hi : memRead m (add16 addr 1#16) = .ok (m.byteAt (addr.toNat + 1)) := by
        rw [memRead_ok (by omega), hn]
      exact .inl ⟨h, by simp only [read16, memRead_backed h1, hi]; rfl⟩

/-- A zero-page pointer read never raises: both its bytes are in page 0 (41_addressing_modes.md R138). -/
theorem pointerWord_eq (m : Memory) (ptr : Byte) :
    pointerWord m ptr = .ok (joinBytes (m.byteAt (add8 ptr 1#8).toNat) (m.byteAt ptr.toNat)) := by
  simp only [pointerWord, memRead_zext16]
  rfl

/-- All that `resolve` can answer: an address, or AddressRange(0xFFFF), or for the tag None its own condition. -/
theorem resolve_error {mode : Mode} {s : State} {f : Fault} (h : resolve mode s = .error f) :
    (mode = .none ∧ f = .unsupportedAddressingMode .none) ∨ (mode ≠ .none ∧ f = .addressRange 0xFFFF#16) := by
  rcases memRead_cases s.mem s.pc with ⟨-, h1⟩ | ⟨-, h1⟩ <;> rcases read16_cases s.mem s.pc with ⟨-, h2⟩ | ⟨-, h2⟩ <;>
    cases mode <;> simp_all [resolve, bind, Except.bind, pure, Except.pure, pointerWord_eq]

/-- Exactly when the resolver raises, for a mode that is not None: an operand byte it reads is at 0xFFFF (R131 to R139). -/
theorem resolve_raises_iff {mode : Mode} {s : State} (hm : mode ≠ .none) :
    resolve mode s = .error (.addressRange 0xFFFF#16) ↔
      (mode ≠ .immediate ∧ s.pc = 0xFFFF#16) ∨ (mode.operandBytes = 2 ∧ s.pc = 0xFFFE#16) := by
  by_cases h1 : s.pc = 0xFFFF#16
  · have h2 : read16 s.mem s.pc = .error (.addressRange 0xFFFF#16) := by rw [h1]; rfl
    cases mode <;> simp_all [resolve, memRead_unbacked, bind, Except.bind, Mode.operandBytes]
  · have h2 : memRead s.mem s.pc = .ok (s.mem.byteAt s.pc.toNat) := memRead_backed h1
    rcases read16_cases s.mem s.pc with ⟨h3, h4⟩ | ⟨h3 | h3, h4⟩
    · have h5 : s.pc ≠ 0xFFFE#16 := by
        intro h5
        rw [h5] at h3
        exact absurd h3 (by decide)
      cases mode <;> simp_all [resolve, bind, Except.bind, pure, Except.pure, pointerWord_eq, Mode.operandBytes]
    · cases mode <;> simp_all [resolve, bind, Except.bind, pure, Except.pure, pointerWord_eq, Mode.operandBytes]
    · exact absurd h3 h1

/-- All that the data read of a load can answer (43_load_accumulator.md R165). -/
theorem loadByte_cases (mode : Mode) (s : State) :
    (∃ addr, resolve mode s = .ok addr ∧ addr ≠ 0xFFFF#16 ∧ loadByte mode s = .ok (s.mem.byteAt addr.toNat)) ∨
    (resolve mode s = .ok 0xFFFF#16 ∧ loadByte mode s = .error (.addressRange 0xFFFF#16)) ∨
    (∃ f, resolve mode s = .error f ∧ loadByte mode s = .error f) := by
  cases h : resolve mode s with
  | error f => exact .inr (.inr ⟨f, rfl, by simp only [loadByte, h]; rfl⟩)
  | ok addr =>
    rcases memRead_cases s.mem addr with ⟨hne, hr⟩ | ⟨heq, hr⟩
    · exact .inl ⟨addr, rfl, hne, by simp only [loadByte, h, bind, Except.bind, hr]⟩
    · subst heq
      exact .inr (.inl ⟨rfl, by simp only [loadByte, h, bind, Except.bind, hr]⟩)

/-- The condition a load raises, where its mode is not None (60_exceptions.md R203). -/
theorem loadByte_error {mode : Mode} {s : State} {f : Fault} (hm : mode ≠ .none) (h : loadByte mode s = .error f) :
    f = .addressRange 0xFFFF#16 := by
  rcases loadByte_cases mode s with ⟨_, -, -, he⟩ | ⟨-, he⟩ | ⟨g, hr, he⟩
  · rw [he] at h
    cases h
  · rw [he] at h
    exact (Except.error.inj h).symm
  · rw [he] at h
    rcases resolve_error hr with ⟨hn, -⟩ | ⟨-, hf⟩
    · exact absurd hn hm
    · rw [← Except.error.inj h, hf]

/-- `lda` answers one of two next states (R165, R205). -/
theorem lda_cases (mode : Mode) (n : Word) (s : State) :
    (∃ v, loadByte mode s = .ok v ∧ lda mode n s = .next (s.loaded v n)) ∨
    (∃ f, loadByte mode s = .error f ∧ lda mode n s = .next (s.raise f)) := by
  cases h : loadByte mode s with
  | ok v => exact .inl ⟨v, rfl, by simp only [lda, h]⟩
  | error f => exact .inr ⟨f, rfl, by simp only [lda, h]⟩

/-- Two memories answer alike at every address of a list. -/
abbrev AgreeOn (as : List Word) (m m' : Memory) : Prop := ∀ a ∈ as, memRead m' a = memRead m a

theorem read16_agree {m m' : Memory} {addr : Word} (h : AgreeOn (read16Accesses m addr) m m') :
    read16 m' addr = read16 m addr ∧ read16Accesses m' addr = read16Accesses m addr := by
  unfold read16Accesses at *
  cases h1 : memRead m addr with
  | error f =>
    have h2 : memRead m' addr = .error f := by rw [← h1]; exact h addr (by simp [h1])
    simp [read16, h1, h2, bind, Except.bind]
  | ok lo =>
    have h2 : memRead m' addr = .ok lo := by rw [← h1]; exact h addr (by simp [h1])
    have h3 : memRead m' (add16 addr 1#16) = memRead m (add16 addr 1#16) := h _ (by simp [h1])
    simp [read16, h1, h2, h3, bind, Except.bind]

theorem indirect_agree {m m' : Memory} {pc : Word} {idx : Byte} (h : AgreeOn (indirectAccesses m pc idx) m m') :
    (memRead m' pc >>= fun b => pointerWord m' (add8 b idx)) = (memRead m pc >>= fun b => pointerWord m (add8 b idx)) ∧
    indirectAccesses m' pc idx = indirectAccesses m pc idx := by
  unfold indirectAccesses at *
  cases h1 : memRead m pc with
  | error f =>
    have h2 : memRead m' pc = .error f := by rw [← h1]; exact h pc (by simp [h1])
    simp [h2, bind, Except.bind]
  | ok b =>
    have h2 : memRead m' pc = .ok b := by rw [← h1]; exact h pc (by simp [h1])
    have h3 : memRead m' (zext16 (add8 b idx)) = memRead m (zext16 (add8 b idx)) :=
      h _ (by simp [h1, pointerAccesses])
    have h4 : memRead m' (zext16 (add8 (add8 b idx) 1#8)) = memRead m (zext16 (add8 (add8 b idx) 1#8)) :=
      h _ (by simp [h1, pointerAccesses])
    simp [h2, bind, Except.bind, pointerWord, h3, h4]

/-- The resolver depends on memory only through the bytes it accesses (R68, R142). -/
theorem resolve_agree {mode : Mode} {s : State} {m' : Memory} (h : AgreeOn (resolveAccesses mode s) s.mem m') :
    resolve mode { s with mem := m' } = resolve mode s ∧
    resolveAccesses mode { s with mem := m' } = resolveAccesses mode s := by
  cases mode with
  | immediate => exact ⟨rfl, rfl⟩
  | none => exact ⟨rfl, rfl⟩
  | zeroPage | zeroPageX | zeroPageY =>
    have h1 : memRead m' s.pc = memRead s.mem s.pc := h s.pc (by simp [resolveAccesses])
    exact ⟨by simp only [resolve, h1], rfl⟩
  | absolute | absoluteX | absoluteY =>
    have h1 := read16_agree h
    exact ⟨by simp only [resolve, h1.1], h1.2⟩
  | indirectX | indirectY =>
    have h1 := indirect_agree h
    exact ⟨by simpa only [resolve] using h1.1, h1.2⟩

/-- A load's data byte depends on memory only through the bytes it accesses (R68). -/
theorem loadByte_agree {mode : Mode} {s : State} {m' : Memory} (h : AgreeOn (loadAccesses mode s) s.mem m') :
    loadByte mode { s with mem := m' } = loadByte mode s := by
  unfold loadAccesses at h
  cases h1 : resolve mode s with
  | error f =>
    have h2 := (resolve_agree (s := s) (m' := m') (mode := mode) (by simpa [h1] using h)).1
    simp [loadByte, h2, h1, bind, Except.bind]
  | ok addr =>
    simp only [h1] at h
    have h2 := (resolve_agree (s := s) (m' := m') (mode := mode) fun a ha => h a (by simp [ha])).1
    have h3 : memRead m' addr = memRead s.mem addr := h addr (by simp)
    simp [loadByte, h2, h1, bind, Except.bind, h3]

end Sys2Proof.Machine
end

