-- ==== Sys2Proof/Laws/Step.lean ====
section
/-! SUPPORT. What `exec` and `step` can answer, said once, so that no later proof unfolds them. -/

namespace Sys2Proof.Machine

/-- A load is its shared operation, with the mode the opcode declares and its operand count (R110, R165). -/
theorem exec_load {i : Instr} (hm : modeOf i ≠ .none) (s : State) :
    exec i s = lda (modeOf i) (BitVec.ofNat 16 (operandCount i)) s := by
  cases i <;> first | rfl | exact absurd rfl hm

/-- All that `exec` can answer: terminate; a register write; a load; or, for a load, the entry of
AddressRange(0xFFFF). -/
theorem exec_cases (i : Instr) (s : State) :
    (i = .brk ∧ exec i s = .next s.terminate) ∨
    (i = .tax ∧ exec i s = .next (s.writeX s.a)) ∨
    (i = .inx ∧ exec i s = .next (s.writeX (add8 s.x 1#8))) ∨
    (modeOf i ≠ .none ∧ ∃ v, loadByte (modeOf i) s = .ok v ∧
      exec i s = .next (s.loaded v (BitVec.ofNat 16 (operandCount i)))) ∨
    (modeOf i ≠ .none ∧ loadByte (modeOf i) s = .error (.addressRange 0xFFFF#16) ∧
      exec i s = .next (s.raise (.addressRange 0xFFFF#16))) := by
  by_cases hm : modeOf i = .none
  · cases i with
    | brk => exact .inl ⟨rfl, rfl⟩
    | tax => exact .inr (.inl ⟨rfl, rfl⟩)
    | inx => exact .inr (.inr (.inl ⟨rfl, rfl⟩))
    | ldaIndX | ldaZp | ldaImm | ldaAbs | ldaIndY | ldaZpX | ldaAbsY | ldaAbsX => cases hm
  · refine .inr (.inr (.inr ?_))
    rw [exec_load hm]
    rcases lda_cases (modeOf i) (BitVec.ofNat 16 (operandCount i)) s with ⟨v, hv, he⟩ | ⟨f, hf, he⟩
    · exact .inl ⟨hm, v, hv, he⟩
    · have := loadByte_error hm hf
      subst this
      exact .inr ⟨hm, hf, he⟩

/-- All that `fetch` can answer (R111, R112). -/
theorem fetch_cases (s : State) :
    (s.pc ≠ 0xFFFF#16 ∧ fetch s = .ok (s.mem.byteAt s.pc.toNat, s.advance 1#16)) ∨
    (s.pc = 0xFFFF#16 ∧ fetch s = .error (.addressRange 0xFFFF#16)) := by
  rcases memRead_cases s.mem s.pc with ⟨h, he⟩ | ⟨h, he⟩
  · exact .inl ⟨h, by simp only [fetch, he]; rfl⟩
  · exact .inr ⟨h, by simp only [fetch, he]; rfl⟩

/-- All that `step` can answer in the Running state (R110, R113, R191). -/
theorem step_running_cases {s : State} (h : s.run = .running) :
    (s.pc = 0xFFFF#16 ∧ step s = .next (s.raise (.addressRange 0xFFFF#16))) ∨
    (s.pc ≠ 0xFFFF#16 ∧ decodeOpcode (s.mem.byteAt s.pc.toNat) = none ∧
      step s = .next ((s.advance 1#16).raise (.unimplementedInstruction (s.mem.byteAt s.pc.toNat)))) ∨
    (s.pc ≠ 0xFFFF#16 ∧ ∃ i, decodeOpcode (s.mem.byteAt s.pc.toNat) = some i ∧ step s = exec i (s.advance 1#16)) := by
  rcases fetch_cases s with ⟨hp, hf⟩ | ⟨hp, hf⟩
  · cases hd : decodeOpcode (s.mem.byteAt s.pc.toNat) with
    | none => exact .inr (.inl ⟨hp, rfl, by simp only [step, h, hf, hd]; rfl⟩)
    | some i => exact .inr (.inr ⟨hp, i, rfl, by simp only [step, h, hf, hd]⟩)
  · exact .inl ⟨hp, by simp only [step, h, hf]⟩

theorem step_halted {s : State} (h : s.run = .halted) : step s = .next s := by
  simp only [step, h]

/-- What a next state of `exec` keeps and changes, whichever instruction it is. -/
theorem exec_next {i : Instr} {s t : State} (h : exec i s = .next t) :
    t.y = s.y ∧ t.mem = s.mem ∧ reservedBits t.p = reservedBits s.p := by
  rcases exec_cases i s with ⟨-, he⟩ | ⟨-, he⟩ | ⟨-, he⟩ | ⟨-, v, -, he⟩ | ⟨-, -, he⟩ <;> rw [he] at h <;> cases h <;>
    simp [reservedBits_setZeroNegative]

/-- The byte decodes to an instruction exactly when it is that instruction's opcode byte (30_encoding.md R86). -/
theorem decodeOpcode_opcodeOf (i : Instr) : decodeOpcode (opcodeOf i) = some i := by
  cases i <;> decide

theorem opcodeOf_of_decodeOpcode {b : Byte} {i : Instr} (h : decodeOpcode b = some i) : b = opcodeOf i := by
  revert b
  cases i <;> decide

theorem operandCount_le (i : Instr) : operandCount i ≤ 2 := by
  cases i <;> decide

end Sys2Proof.Machine
end

