-- ==== Sys2Proof/Laws/Commands.lean ====
section
/-! SUPPORT. The run loop as an induction packaged once, and what each command of the host can leave. -/

namespace Sys2Proof.Machine

/-- What holds at the start of a run and is kept by every step holds at its end. -/
theorem runLoop_induct {Q : State → Prop} (hstep : ∀ s t, Q s → step s = .next t → Q t) :
    ∀ (n : Nat) (s : State), Q s → Q (runLoop n s)
  | 0, _, h => h
  | n + 1, s, h => by
    unfold runLoop
    cases hr : s.run with
    | halted => exact h
    | running =>
      cases hs : step s with
      | next t => exact runLoop_induct hstep n t (hstep s t h hs)
      | fault f => exact h
      | refused r => exact h

theorem runLoop_halted {s : State} (h : s.run = .halted) : ∀ n, runLoop n s = s
  | 0 => rfl
  | n + 1 => by simp [runLoop, h]

theorem runLoop_running {s t : State} (h : s.run = .running) (ht : step s = .next t) (n : Nat) :
    runLoop (n + 1) s = runLoop n t := by
  simp [runLoop, h, ht]

/-- The reset vector's word: both its bytes exist, so reading it never raises (70_reset_and_hazards.md R230). -/
theorem read16_resetVector (m : Memory) :
    read16 m Config.resetVector = .ok (joinBytes (m.byteAt 0xFFFD) (m.byteAt 0xFFFC)) := by
  rcases read16_cases m Config.resetVector with ⟨-, h⟩ | ⟨h | h, -⟩
  · exact h
  · exact absurd h (by decide)
  · exact absurd h (by decide)

theorem hostReset_eq (s : State) :
    hostReset s =
      (.done, { s with a := 0x00#8, x := 0x00#8, p := 0x00#8, pc := joinBytes (s.mem.byteAt 0xFFFD) (s.mem.byteAt 0xFFFC) }) := by
  simp only [hostReset, read16_resetVector]

/-- A `write16` of the host changes memory alone. -/
theorem hostWrite16_state (addr w : Word) (s : State) :
    (hostWrite16 addr w s).2 = { s with mem := (write16 s.mem addr w).1 } := by
  unfold hostWrite16
  rcases h : write16 s.mem addr w with ⟨m, _ | f⟩ <;> rfl

/-- The write of the reset vector that ends a `load` is always carried out (R234). -/
theorem write16_resetVector (m : Memory) (w : Word) :
    write16 m Config.resetVector w = ((m.store 0xFFFC (lowByte w)).store 0xFFFD (highByte w), none) := rfl

/-- All that `load` can answer: rejected with nothing changed, or the image and then the vector stored. -/
theorem hostLoad_cases (image : List Byte) (s : State) :
    (Config.maxImage < image.length ∧ hostLoad image s = (.rejected (.oversizedLoad image.length), s)) ∨
    (image.length ≤ Config.maxImage ∧ hostLoad image s =
      (.done, { s with mem :=
        ((s.mem.storeBytes 0x8000 image).store 0xFFFC (lowByte Config.origin)).store 0xFFFD (highByte Config.origin) })) := by
  by_cases h : Config.maxImage < image.length
  · exact .inl ⟨h, by simp only [hostLoad, if_pos h]⟩
  · exact .inr ⟨by omega, by simp only [hostLoad, if_neg h, hostWrite16, write16_resetVector]; rfl⟩

/-- All that a command can leave: the same machine; another memory; the registers `reset` writes; the end of a run. A
command that chains three of them is one after another. -/
theorem command_induct {Q : State → Prop} (hstep : ∀ s t, Q s → step s = .next t → Q t)
    (hbegin : ∀ s, Q s → Q s.beginRun) (hreset : ∀ s, Q s → Q (hostReset s).2)
    (hwrite : ∀ s addr v m, Q s → memWrite s.mem addr v = .ok m → Q { s with mem := m })
    (hbytes : ∀ s a bs, Q s → Q { s with mem := s.mem.storeBytes a bs }) (c : Command) (s : State) (h : Q s) :
    Q (command c s).2 := by
  have hw16 : ∀ (s : State) (addr w : Word), Q s → Q (hostWrite16 addr w s).2 := by
    intro s addr w h
    rw [hostWrite16_state]
    unfold write16
    cases h1 : memWrite s.mem addr (lowByte w) with
    | error f => exact h
    | ok m1 =>
      have hm1 := hwrite s _ _ _ h h1
      simp only
      cases h2 : memWrite m1 (add16 addr 1#16) (highByte w) with
      | error f => exact hm1
      | ok m2 => exact hwrite { s with mem := m1 } _ _ _ hm1 h2
  have hload : ∀ (s : State) (image : List Byte), Q s → Q (hostLoad image s).2 := by
    intro s image h
    unfold hostLoad
    split
    · exact h
    · exact hw16 _ _ _ (hbytes _ _ _ h)
  have hrun : ∀ s : State, Q s → Q (hostRun s).2 := fun s h => runLoop_induct hstep _ _ (hbegin s h)
  unfold command
  cases s.run with
  | running => exact h
  | halted =>
    cases c with
    | read addr =>
      rcases memRead_cases s.mem addr with ⟨-, he⟩ | ⟨-, he⟩ <;> simpa only [hostRead, he] using h
    | write addr v =>
      cases he : memWrite s.mem addr v with
      | ok m => simpa only [hostWrite, he] using hwrite s _ _ _ h he
      | error f => simpa only [hostWrite, he] using h
    | read16 addr =>
      rcases read16_cases s.mem addr with ⟨-, he⟩ | ⟨-, he⟩ <;> simpa only [hostRead16, he] using h
    | write16 addr w => exact hw16 s addr w h
    | load image => exact hload s image h
    | reset => exact hreset s h
    | run => exact hrun s h
    | observe => exact h
    | loadAndRun image =>
      have h1 := hload s image h
      rcases hostLoad_cases image s with ⟨-, he⟩ | ⟨-, he⟩
      · simpa only [hostLoadAndRun, he] using h
      · rw [he] at h1
        have h2 := hreset _ h1
        have h3 := hrun _ h2
        simp only [hostReset_eq] at h3
        simpa only [hostLoadAndRun, he, hostReset_eq] using h3

end Sys2Proof.Machine
end

