-- ==== Sys2Proof/Laws/PerInstr.lean ====
section
/-! SUPPORT. The per-instruction family Encoding: the opcode byte of each instruction decodes to it, and it has at most two
operand bytes (30_encoding.md R80, R86). -/

namespace Sys2Proof.Laws.Encoding

/-- The opcode byte reads back as the instruction, and the format is F1, F2 or F3. -/
def Statement (i : Instr) : Prop :=
  decodeOpcode (opcodeOf i) = some i ∧ Machine.operandCount i ≤ 2

theorem brk : Statement .brk := by unfold Statement; decide
theorem ldaIndX : Statement .ldaIndX := by unfold Statement; decide
theorem ldaZp : Statement .ldaZp := by unfold Statement; decide
theorem ldaImm : Statement .ldaImm := by unfold Statement; decide
theorem tax : Statement .tax := by unfold Statement; decide
theorem ldaAbs : Statement .ldaAbs := by unfold Statement; decide
theorem ldaIndY : Statement .ldaIndY := by unfold Statement; decide
theorem ldaZpX : Statement .ldaZpX := by unfold Statement; decide
theorem ldaAbsY : Statement .ldaAbsY := by unfold Statement; decide
theorem ldaAbsX : Statement .ldaAbsX := by unfold Statement; decide
theorem inx : Statement .inx := by unfold Statement; decide

end Sys2Proof.Laws.Encoding
end

