-- ==== Sys2Proof/Laws/Decode.lean ====
section
/-! SUPPORT. What the decoder's helpers do on byte sequences. -/

namespace Sys2Proof

/-- Taking as many bytes as a sequence begins with gives that beginning and the rest. -/
theorem takeBytes_append : ∀ (xs ys : List Byte), takeBytes xs.length (xs ++ ys) = some (xs, ys)
  | [], _ => rfl
  | x :: xs, ys => by simp [takeBytes, takeBytes_append xs ys]

/-- What `takeBytes` answers is a splitting of the sequence. -/
theorem takeBytes_some : ∀ {n : Nat} {bs xs ys : List Byte}, takeBytes n bs = some (xs, ys) → xs.length = n ∧ bs = xs ++ ys
  | 0, bs, xs, ys, h => by
    simp only [takeBytes, Option.some.injEq, Prod.mk.injEq] at h
    simp [← h.1, h.2]
  | n + 1, [], _, _, h => by simp [takeBytes] at h
  | n + 1, b :: bs, xs, ys, h => by
    simp only [takeBytes, Option.map_eq_some_iff, Prod.mk.injEq, Prod.exists] at h
    obtain ⟨us, vs, hu, rfl, rfl⟩ := h
    obtain ⟨hl, rfl⟩ := takeBytes_some hu
    simp [hl]

/-- An instruction takes at least one byte. -/
theorem encode_ne_nil (c : Code) : encode c ≠ [] := by simp [encode]

theorem encodeAll_cons (c : Code) (cs : List Code) : encodeAll (c :: cs) = encode c ++ encodeAll cs := rfl

end Sys2Proof
end

