-- ==== Sys2Proof/Tests/Slice0.lean ====
section
/-! SUPPORT. The model's own tests: the WellFormed smoke test, one written-out encoding per opcode, single steps whose
expected results are spec/95_test_vectors.md's or a rule's own example, and, for each statement with hypotheses, a
state that meets them all. -/

namespace Sys2Proof.Tests

open Sys2Proof.Machine

/-- The next state of an answer. -/
def nextOf : Result → Option State
  | .next t => some t
  | .fault _ => none
  | .refused _ => none

/-- A Running machine at `pc`, right after `reset` but for index-X, index-Y and memory. -/
def at_ (pc : Word) (x y : Byte) (cells : Memory) : State :=
  { State.reset with x := x, y := y, pc := pc, run := .running, mem := cells }

/-- A Halted machine with the given registers. -/
def idle (a x y p : Byte) (pc : Word) (cells : Memory) : State := State.powerOn a x y p pc cells

/-- `A`, `X`, `P` and `pc` after one step. -/
def regs (s : State) : Option (Byte × Byte × Byte × Word) := (nextOf (step s)).map fun t => (t.a, t.x, t.p, t.pc)

/-- The cause after one step. -/
def causeAfter (s : State) : Option Cause := (nextOf (step s)).map fun t => t.cause

/-! ### Well-formedness: the one check, missed from both sides -/

theorem test_wf_missing_operand_refused : ¬ Code.WellFormed ⟨.ldaImm, []⟩ := by decide
theorem test_wf_extra_operand_refused : ¬ Code.WellFormed ⟨.tax, [0x00#8]⟩ := by decide
theorem test_wf_short_absolute_refused : ¬ Code.WellFormed ⟨.ldaAbs, [0x34#8]⟩ := by decide
theorem test_wf_accepts : Code.WellFormed ⟨.ldaAbs, [0x34#8, 0x12#8]⟩ := by decide

/-! ### Decoding: 30_encoding.md R86, bit by bit, with operand bytes of R81 to R83 -/

theorem test_decode_brk : decode [0b00000000#8] = .ok (⟨.brk, []⟩, []) := by rfl
theorem test_decode_ldaIndX : decode [0b10100001#8, 0x04#8, 0x00#8] = .ok (⟨.ldaIndX, [0x04#8]⟩, [0x00#8]) := by rfl
theorem test_decode_ldaZp : decode [0b10100101#8, 0xC1#8] = .ok (⟨.ldaZp, [0xC1#8]⟩, []) := by rfl
theorem test_decode_ldaImm : decode [0b10101001#8, 0x05#8, 0x00#8] = .ok (⟨.ldaImm, [0x05#8]⟩, [0x00#8]) := by rfl
theorem test_decode_tax : decode [0b10101010#8, 0x00#8] = .ok (⟨.tax, []⟩, [0x00#8]) := by rfl
theorem test_decode_ldaAbs :
    decode [0b10101101#8, 0x34#8, 0x12#8, 0x00#8] = .ok (⟨.ldaAbs, [0x34#8, 0x12#8]⟩, [0x00#8]) := by rfl
theorem test_decode_ldaIndY : decode [0b10110001#8, 0x10#8] = .ok (⟨.ldaIndY, [0x10#8]⟩, []) := by rfl
theorem test_decode_ldaZpX : decode [0b10110101#8, 0x80#8] = .ok (⟨.ldaZpX, [0x80#8]⟩, []) := by rfl
theorem test_decode_ldaAbsY : decode [0b10111001#8, 0xFF#8, 0x80#8] = .ok (⟨.ldaAbsY, [0xFF#8, 0x80#8]⟩, []) := by rfl
theorem test_decode_ldaAbsX : decode [0b10111101#8, 0xFE#8, 0xFF#8] = .ok (⟨.ldaAbsX, [0xFE#8, 0xFF#8]⟩, []) := by rfl
theorem test_decode_inx : decode [0b11101000#8] = .ok (⟨.inx, []⟩, []) := by rfl
theorem test_decode_unimplemented : decode [0xEA#8, 0x00#8] = .error (.unimplemented 0xEA#8) := by rfl
theorem test_decode_truncated : decode [0xAD#8, 0x34#8] = .error .truncated := by rfl
theorem test_encode_ldaAbs : encode ⟨.ldaAbs, [0x34#8, 0x12#8]⟩ = [0xAD#8, 0x34#8, 0x12#8] := by rfl
/-- Bit 0 of a table word is the least significant bit of the first byte. -/
theorem test_table_word : decodeTableWord 16 0x05A9 = some .ldaImm ∧ decodeTableWord 8 0xAD = some .ldaAbs ∧
    decodeTableWord 8 0xEA = none := by decide

/-! ### Single steps -/

/-- R33: after reset Z is clear although `A` is zero, and the machine waits Halted. -/
theorem test_reset : State.reset.p = 0x00#8 ∧ State.reset.pc = 0x0000#16 ∧ State.reset.run = .halted := by decide

/-- Vector L3, second instruction: Z goes from set to clear, N from clear to set. -/
theorem test_ldaImm_recomputes_flags :
    regs { at_ 0x8002#16 0#8 0#8 [(0x8002, 0xA9#8), (0x8003, 0x80#8)] with p := 0x02#8 } =
      some (0x80#8, 0x00#8, 0x80#8, 0x8004#16) := by decide
/-- Vector F2: the operand byte would be at 0xFFFF. -/
theorem test_ldaImm_at_top :
    causeAfter (at_ 0xFFFE#16 0#8 0#8 [(0xFFFE, 0xA9#8)]) = some (.fault (.addressRange 0xFFFF#16)) := by decide

/-- Scenario S5. -/
theorem test_ldaZp_scenario5 : regs (at_ 0x8000#16 0#8 0#8 [(0x00C1, 0x01#8), (0x8000, 0xA5#8), (0x8001, 0xC1#8)]) =
    some (0x01#8, 0x00#8, 0x00#8, 0x8002#16) := by decide
/-- Vector L7, with a decoy at 0x0100: operand 0xFF reads 0x00FF. -/
theorem test_ldaZp_top : regs (at_ 0x8000#16 0#8 0#8 [(0x0100, 0x44#8), (0x8000, 0xA5#8), (0x8001, 0xFF#8)]) =
    some (0x00#8, 0x00#8, 0x02#8, 0x8002#16) := by decide

/-- Vector L9: 0x80 + 0xFF wraps to 0x7F; 0x017F is a decoy. -/
theorem test_ldaZpX_wraps :
    regs (at_ 0x8003#16 0xFF#8 0#8 [(0x007F, 0x11#8), (0x017F, 0x22#8), (0x8003, 0xB5#8), (0x8004, 0x80#8)]) =
      some (0x11#8, 0xFF#8, 0x00#8, 0x8005#16) := by decide

/-- Vector L11: operand bytes low first. -/
theorem test_ldaAbs_little_endian :
    regs (at_ 0x8000#16 0#8 0#8 [(0x1234, 0x7F#8), (0x3412, 0x80#8), (0x8000, 0xAD#8), (0x8001, 0x34#8), (0x8002, 0x12#8)]) =
      some (0x7F#8, 0x00#8, 0x00#8, 0x8003#16) := by decide
/-- Vector L15 and program P6: the data read at 0xFFFF raises. -/
theorem test_ldaAbs_unbacked :
    causeAfter (at_ 0x8000#16 0#8 0#8 [(0x8000, 0xAD#8), (0x8001, 0xFF#8), (0x8002, 0xFF#8)]) =
      some (.fault (.addressRange 0xFFFF#16)) := by decide

/-- Vector L16: the sum crosses a page. -/
theorem test_ldaAbsX_crosses_page :
    regs (at_ 0x8003#16 0x20#8 0#8 [(0x1310, 0x44#8), (0x8003, 0xBD#8), (0x8004, 0xF0#8), (0x8005, 0x12#8)]) =
      some (0x44#8, 0x20#8, 0x00#8, 0x8006#16) := by decide
/-- Vector L17: the sum wraps modulo 65536; 0x0003 holds 0x00. -/
theorem test_ldaAbsX_wraps :
    regs (at_ 0x8003#16 0x05#8 0#8 [(0x0004, 0x77#8), (0x8003, 0xBD#8), (0x8004, 0xFE#8), (0x8005, 0xFF#8)]) =
      some (0x00#8, 0x05#8, 0x02#8, 0x8006#16) := by decide

/-- Vector L20. -/
theorem test_ldaAbsY_crosses_page :
    regs (at_ 0x8000#16 0#8 0x01#8 [(0x8000, 0xB9#8), (0x8001, 0xFF#8), (0x8002, 0x80#8), (0x8100, 0xC3#8)]) =
      some (0xC3#8, 0x00#8, 0x80#8, 0x8003#16) := by decide
/-- Vector L22b. -/
theorem test_ldaAbsY_unbacked :
    causeAfter (at_ 0x8000#16 0#8 0xFF#8 [(0x8000, 0xB9#8), (0x8002, 0xFF#8)]) =
      some (.fault (.addressRange 0xFFFF#16)) := by decide

/-- Scenario S6 as corrected (90_conflicts.md C2). -/
theorem test_ldaIndX_scenario6 :
    regs (at_ 0x8002#16 0x02#8 0#8 [(0x0001, 0x03#8), (0x0006, 0x01#8), (0x8002, 0xA1#8), (0x8003, 0x04#8)]) =
      some (0x03#8, 0x02#8, 0x00#8, 0x8004#16) := by decide
/-- Vector L23: pointer 0xFF takes its high byte from 0x0000; 0x0100 and 0x5634 are decoys. -/
theorem test_ldaIndX_pointer_wraps :
    regs (at_ 0x8001#16 0x01#8 0#8 [(0x0000, 0x12#8), (0x00FF, 0x34#8), (0x0100, 0x56#8), (0x1234, 0x81#8),
      (0x5634, 0x7E#8), (0x8001, 0xA1#8), (0x8002, 0xFE#8)]) = some (0x81#8, 0x01#8, 0x80#8, 0x8003#16) := by decide

/-- Vector L27: `Y` indexes the pointer byte; the canonical rule would read the decoy at 0x4004. -/
theorem test_ldaIndY_reference :
    regs (at_ 0x8000#16 0#8 0x04#8 [(0x0011, 0x40#8), (0x0015, 0x30#8), (0x3000, 0x99#8), (0x4004, 0x55#8),
      (0x8000, 0xB1#8), (0x8001, 0x10#8)]) = some (0x99#8, 0x00#8, 0x80#8, 0x8002#16) := by decide
/-- Vector L29: pointer 0xFF wraps for this mode too. -/
theorem test_ldaIndY_pointer_wraps :
    regs (at_ 0x8000#16 0#8 0x00#8 [(0x0000, 0x30#8), (0x0100, 0x40#8), (0x3000, 0x01#8), (0x4000, 0x02#8),
      (0x8000, 0xB1#8), (0x8001, 0xFF#8)]) = some (0x01#8, 0x00#8, 0x00#8, 0x8002#16) := by decide

/-- Vector T1: `A` = 0, so TAX sets Z. -/
theorem test_tax_zero : regs (at_ 0x8000#16 0x33#8 0#8 [(0x8000, 0xAA#8)]) = some (0x00#8, 0x00#8, 0x02#8, 0x8001#16) := by
  decide
/-- R180's example: `A` = 0xFF. -/
theorem test_tax_negative :
    regs { at_ 0x8000#16 0#8 0#8 [(0x8000, 0xAA#8)] with a := 0xFF#8 } = some (0xFF#8, 0xFF#8, 0x80#8, 0x8001#16) := by decide

/-- Vector I2: 0xFF wraps to 0x00, Z set, N cleared. -/
theorem test_inx_wraps :
    regs { at_ 0x8003#16 0xFF#8 0#8 [(0x8003, 0xE8#8)] with p := 0x80#8 } = some (0x00#8, 0x00#8, 0x02#8, 0x8004#16) := by
  decide
/-- Vector I3: 0x7F to 0x80 sets N; and at the top of memory (F1) `pc` becomes 0xFFFF. -/
theorem test_inx_sign :
    regs (at_ 0xFFFE#16 0x7F#8 0#8 [(0xFFFE, 0xE8#8)]) = some (0x00#8, 0x80#8, 0x80#8, 0xFFFF#16) := by decide

/-- Vector F3: terminate at 0xFFFE. -/
theorem test_brk_top : regs (at_ 0xFFFE#16 0#8 0#8 []) = some (0x00#8, 0x00#8, 0x00#8, 0xFFFF#16) ∧
    causeAfter (at_ 0xFFFE#16 0#8 0#8 []) = some .terminated := by decide

/-- Vector E3: the canonical no-operation byte stops the run. -/
theorem test_unimplemented :
    causeAfter (at_ 0x8000#16 0#8 0#8 [(0x8000, 0xEA#8)]) = some (.fault (.unimplementedInstruction 0xEA#8)) := by decide

/-- Vector F5, step level: the fetch at 0xFFFF changes no register, `pc` included. -/
theorem test_fetch_unbacked : regs (at_ 0xFFFF#16 0#8 0#8 []) = some (0x00#8, 0x00#8, 0x00#8, 0xFFFF#16) ∧
    causeAfter (at_ 0xFFFF#16 0#8 0#8 []) = some (.fault (.addressRange 0xFFFF#16)) := by decide

/-- Vector A6: the one mode no opcode uses. -/
theorem test_resolve_zeroPageY :
    (resolve .zeroPageY (at_ 0x8001#16 0#8 0x20#8 [(0x8001, 0xF0#8)])).toOption = some 0x0010#16 := by decide

/-- Vectors U8, U11: the flag update replaces bits 1 and 7 and keeps the others. -/
theorem test_flags : setZeroNegative 0x80#8 0x02#8 = 0x80#8 ∧ setZeroNegative 0xFF#8 0x7D#8 = 0xFD#8 := by decide

/-- The order of 20_memory.md R68 for scenario S6's load. -/
theorem test_accesses :
    stepAccesses (at_ 0x8002#16 0x02#8 0#8 [(0x0001, 0x03#8), (0x0006, 0x01#8), (0x8002, 0xA1#8), (0x8003, 0x04#8)]) =
      [0x8002#16, 0x8003#16, 0x0006#16, 0x0007#16, 0x0001#16] := by decide

/-- One word of each opcode-table row runs as the first instruction after reset (log entry 3). -/
theorem test_first_step :
    ([0x00, 0xA1, 0xA5, 0xA9, 0xAA, 0xAD, 0xB1, 0xB5, 0xB9, 0xBD, 0xE8].map fun w =>
      (nextOf (step (State.reset.withFetchWord 8 w))).map fun t => t.pc.toNat) =
      [some 1, some 2, some 2, some 2, some 1, some 3, some 2, some 2, some 3, some 3, some 1] := by decide

/-! ### The host's commands -/

/-- Vector Z1: `Y` survives, all eight bits of `P` are cleared. -/
theorem test_reset_command :
    (command .reset (idle 0x05#8 0x07#8 0x09#8 0x82#8 0x1111#16 [(0xFFFD, 0x80#8)])).2 =
      idle 0x00#8 0x00#8 0x09#8 0x00#8 0x8000#16 [(0xFFFD, 0x80#8)] := by decide
/-- Vector D1. -/
theorem test_load_command :
    command (.load [0xA9#8, 0x05#8, 0x00#8]) State.reset =
      (.done, { State.reset with mem := [(0x8000, 0xA9#8), (0x8001, 0x05#8), (0xFFFD, 0x80#8)] }) := by decide
/-- R54: a `write16` at 0xFFFE has written its low byte when the second write is rejected. -/
theorem test_write16_partial :
    command (.write16 0xFFFE#16 0x1234#16) State.reset =
      (.rejected (.addressRange 0xFFFF#16), { State.reset with mem := [(0xFFFE, 0x34#8)] }) := by decide

/-! ### Witnesses: states and operands that meet a statement's hypotheses, at the boundaries of their ranges -/

/-- A Running machine whose every case below is reached by choosing the byte at `pc`. -/
def w (pc : Word) (b : Byte) : State := at_ pc 0x01#8 0x02#8 [(pc.toNat, b)]

theorem witness_FlagUpdateRecomputesBoth :
    Config.zBit = 1 ∧ Config.nBit = 7 ∧ 0x82#8 &&& 0x7D#8 = 0x00#8 ∧ (6 : Nat) < 8 ∧ (6 : Nat) ≠ Config.zBit ∧
    (6 : Nat) ≠ Config.nBit ∧ (w 0x8000#16 0x80#8).run = .running ∧
    exec .ldaImm (w 0x8000#16 0x80#8) = .next { w 0x8000#16 0x80#8 with a := 0x80#8, p := 0x80#8, pc := 0x8001#16 } :=
  ⟨rfl, rfl, by decide, by decide, by decide, by decide, rfl, rfl⟩
theorem witness_MemReadIsBounded : (0xFFFE#16 : Word).toNat < 65535 ∧ 65535 ≤ (0xFFFF#16 : Word).toNat := by decide
theorem witness_MemWriteChangesOneByte :
    Memory.wf [(0xFFFE, 0x01#8)] = true ∧ (0xFFFE#16 : Word).toNat < Config.memSize ∧ Config.memSize ≤ (0xFFFF#16 : Word).toNat ∧
    nextOf (exec .tax (w 0x8000#16 0xAA#8)) ≠ none := by decide
theorem witness_WordReadsBackAsWritten :
    Memory.wf [(0xFFFE, 0x01#8)] = true ∧ (0xFFFD#16 : Word).toNat + 1 < 65535 := by decide
theorem witness_WordAccessAtTheTopRaises : Memory.wf [(0x0000, 0x01#8), (0xFFFE, 0x01#8)] = true := by decide
theorem witness_MemoriesThatReadAlikeAreEqual :
    Memory.wf [(0x0000, 0x01#8), (0xFFFE, 0x02#8)] = true ∧
    ∀ a < 65535, Memory.byteAt [(0x0000, 0x01#8), (0xFFFE, 0x02#8)] a = Memory.byteAt [(0x0000, 0x01#8), (0xFFFE, 0x02#8)] a :=
  ⟨by decide, fun _ _ => rfl⟩
/-- What the canonical form refuses: a repeated address, the unlisted value, the unbacked address. -/
theorem witness_canonical_form_refuses :
    Memory.wf [(1, 0x01#8), (1, 0x02#8)] = false ∧ Memory.wf [(1, 0x00#8)] = false ∧ Memory.wf [(65535, 0x01#8)] = false := by
  decide
theorem witness_CodeReadsBack :
    Code.WellFormed ⟨.brk, []⟩ ∧ Code.WellFormed ⟨.ldaImm, [0xFF#8]⟩ ∧ Code.WellFormed ⟨.ldaAbsY, [0xFF#8, 0x80#8]⟩ := by decide
theorem witness_OnlyEncodingsAreRead : decode [0xAD#8, 0x34#8, 0x12#8, 0x00#8] = .ok (⟨.ldaAbs, [0x34#8, 0x12#8]⟩, [0x00#8]) := by
  rfl
theorem witness_ProgramsReadBack :
    ∀ c ∈ [Code.mk .ldaImm [0x05#8], Code.mk .ldaAbs [0x34#8, 0x12#8], Code.mk .brk []], c.WellFormed := by decide
theorem witness_PlacedWordIsRunNext :
    State.reset.mem.wf = true ∧ (0xFFFE#16 : Word) ≠ 0xFFFF#16 ∧ State.reset.pc ≠ 0xFFFF#16 ∧
    decodeTableWord 8 0xE8 = some .inx := by decide
theorem witness_SingleByteModesResolve :
    (w 0xFFFE#16 0x80#8).pc ≠ 0xFFFF#16 ∧ (w 0xFFFF#16 0x80#8).pc = 0xFFFF#16 ∧
    (resolve .zeroPageX (w 0xFFFE#16 0x80#8)).toOption = some 0x0081#16 := by decide
theorem witness_ZeroPageYResolvesButNoOpcodeUsesIt :
    (w 0xFFFE#16 0xFE#8).pc ≠ 0xFFFF#16 ∧ (w 0xFFFF#16 0x80#8).pc = 0xFFFF#16 ∧
    (resolve .zeroPageY (w 0xFFFE#16 0xFE#8)).toOption = some 0x0000#16 := by decide
theorem witness_AbsoluteModesResolve :
    (w 0xFFFD#16 0x80#8).pc.toNat < 0xFFFE ∧ 0xFFFE ≤ (w 0xFFFE#16 0x80#8).pc.toNat ∧ 0xFFFE ≤ (w 0xFFFF#16 0x80#8).pc.toNat := by
  decide
theorem witness_IndirectModesResolve :
    (w 0xFFFF#16 0x80#8).pc = 0xFFFF#16 ∧ (w 0xFFFE#16 0xFE#8).pc ≠ 0xFFFF#16 ∧
    add8 ((w 0xFFFE#16 0xFE#8).mem.byteAt 0xFFFE) (w 0xFFFE#16 0xFE#8).x = 0xFF#8 ∧
    add8 ((w 0xFFFE#16 0xFD#8).mem.byteAt 0xFFFE) (w 0xFFFE#16 0xFD#8).y = 0xFF#8 := by decide
theorem witness_ResolvingNoneRaisesAndNoStepDoesIt :
    nextOf (step (w 0x8000#16 0xEA#8)) ≠ none ∧ (w 0x8000#16 0xEA#8).cause ≠ .fault (.unsupportedAddressingMode .none) := by decide
theorem witness_ResolverIsPure :
    (w 0x8000#16 0x80#8).pc = { w 0x8000#16 0x80#8 with a := 0x55#8, p := 0x80#8 }.pc ∧
    (w 0x8000#16 0x80#8).mem = { w 0x8000#16 0x80#8 with a := 0x55#8, p := 0x80#8 }.mem ∧
    (w 0x8000#16 0x80#8).x = { w 0x8000#16 0x80#8 with a := 0x55#8, p := 0x80#8 }.x ∧
    (w 0x8000#16 0x80#8).y = { w 0x8000#16 0x80#8 with a := 0x55#8, p := 0x80#8 }.y := by decide
theorem witness_LoadFamilyCommonSemantics :
    modeOf .ldaZp ≠ .none ∧ (resolve (modeOf .ldaZp) (w 0xFFFE#16 0xFF#8)).toOption = some 0x00FF#16 ∧
    (memRead (w 0xFFFE#16 0xFF#8).mem 0x00FF#16).toOption = some 0x00#8 ∧
    resolve (modeOf .ldaZp) (w 0xFFFF#16 0xFF#8) = .error (.addressRange 0xFFFF#16) ∧
    resolve (modeOf .ldaImm) (w 0xFFFF#16 0xFF#8) = .ok 0xFFFF#16 ∧
    memRead (w 0xFFFF#16 0xFF#8).mem 0xFFFF#16 = .error (.addressRange 0xFFFF#16) :=
  ⟨by decide, by decide, by decide, rfl, rfl, rfl⟩
/-- Covers the hypotheses of LoadImmediate, LoadZeroPage and LoadZeroPageX: both sides of the range of `pc`. -/
theorem witness_single_byte_loads :
    (w 0xFFFE#16 0xFF#8).pc ≠ 0xFFFF#16 ∧ 0xFF#8 = (w 0xFFFE#16 0xFF#8).mem.byteAt (w 0xFFFE#16 0xFF#8).pc.toNat ∧
    0x00#8 = (w 0xFFFE#16 0xFF#8).mem.byteAt (zext16 0xFF#8).toNat ∧
    0x00#8 = (w 0xFFFE#16 0xFF#8).mem.byteAt (((0xFF#8 : Byte).toNat + (w 0xFFFE#16 0xFF#8).x.toNat) % 256) ∧
    (w 0xFFFF#16 0xFF#8).pc = 0xFFFF#16 := by decide
/-- The last clause of LoadImmediate, at the last `pc` whose operand byte does not exist. -/
theorem witness_LoadImmediate_accesses :
    (w 0xFFFE#16 0xA9#8).run = .running ∧ (w 0xFFFE#16 0xA9#8).pc ≠ 0xFFFF#16 ∧
    (w 0xFFFE#16 0xA9#8).mem.byteAt (w 0xFFFE#16 0xA9#8).pc.toNat = 0xA9#8 := by decide

/-- A Running machine whose two bytes from 0x8001 on are `lo` and `hi`, with `pc` there. -/
def w2 (lo hi : Byte) (x y : Byte) : State := at_ 0x8001#16 x y [(0x8001, lo), (0x8002, hi)]

/-- Covers LoadAbsolute: an address below 0xFFFF, 0xFFFF itself, the last `pc` with two operand bytes and the first without. -/
theorem witness_LoadAbsolute :
    (w2 0xFE#8 0xFF#8 0#8 0#8).pc.toNat < 0xFFFE ∧
    0xFFFE = ((w2 0xFE#8 0xFF#8 0#8 0#8).mem.byteAt (0x8001 + 1)).toNat * 256 + ((w2 0xFE#8 0xFF#8 0#8 0#8).mem.byteAt 0x8001).toNat ∧
    0xFFFF = ((w2 0xFF#8 0xFF#8 0#8 0#8).mem.byteAt (0x8001 + 1)).toNat * 256 + ((w2 0xFF#8 0xFF#8 0#8 0#8).mem.byteAt 0x8001).toNat ∧
    (w 0xFFFD#16 0x34#8).pc.toNat < 0xFFFE ∧ 0xFFFE ≤ (w 0xFFFE#16 0x34#8).pc.toNat := by decide
/-- Covers LoadAbsoluteX and LoadAbsoluteY: the sum wraps to 0x0000, and the sum is 0xFFFF. -/
theorem witness_LoadAbsoluteX_LoadAbsoluteY :
    0x0000 = (((w2 0xFF#8 0xFF#8 1#8 1#8).mem.byteAt (0x8001 + 1)).toNat * 256 +
      ((w2 0xFF#8 0xFF#8 1#8 1#8).mem.byteAt 0x8001).toNat + (w2 0xFF#8 0xFF#8 1#8 1#8).x.toNat) % 65536 ∧
    0xFFFF = (((w2 0x00#8 0xFF#8 0xFF#8 0xFF#8).mem.byteAt (0x8001 + 1)).toNat * 256 +
      ((w2 0x00#8 0xFF#8 0xFF#8 0xFF#8).mem.byteAt 0x8001).toNat + (w2 0x00#8 0xFF#8 0xFF#8 0xFF#8).y.toNat) % 65536 ∧
    (w2 0xFF#8 0xFF#8 1#8 1#8).pc.toNat < 0xFFFE ∧ 0xFFFE ≤ (w 0xFFFF#16 0x34#8).pc.toNat := by decide

/-- A Running machine at operand byte 0x20 (with index 0) whose pointer cell 0x20, 0x21 holds the given word. -/
def w3 (lo hi : Byte) : State := at_ 0x8001#16 0#8 0#8 [(0x20, lo), (0x21, hi), (0x8001, 0x20#8)]

/-- Covers LoadIndirectX and LoadIndirectY: a target of 0xFFFE, a target of 0xFFFF, and `pc` = 0xFFFF. -/
theorem witness_LoadIndirectX_LoadIndirectY :
    (w3 0xFE#8 0xFF#8).pc ≠ 0xFFFF#16 ∧ 0x20 = (((w3 0xFE#8 0xFF#8).mem.byteAt 0x8001).toNat + (w3 0xFE#8 0xFF#8).x.toNat) % 256 ∧
    0x20 = (((w3 0xFE#8 0xFF#8).mem.byteAt 0x8001).toNat + (w3 0xFE#8 0xFF#8).y.toNat) % 256 ∧
    0xFFFE = ((w3 0xFE#8 0xFF#8).mem.byteAt ((0x20 + 1) % 256)).toNat * 256 + ((w3 0xFE#8 0xFF#8).mem.byteAt 0x20).toNat ∧
    0xFFFF = ((w3 0xFF#8 0xFF#8).mem.byteAt ((0x20 + 1) % 256)).toNat * 256 + ((w3 0xFF#8 0xFF#8).mem.byteAt 0x20).toNat ∧
    (w 0xFFFF#16 0x34#8).pc = 0xFFFF#16 := by decide
theorem witness_LoadFrame :
    modeOf .ldaImm ≠ .none ∧ nextOf (exec .ldaImm (w 0x8001#16 0x80#8)) ≠ none ∧ nextOf (exec .ldaImm (w 0xFFFF#16 0x80#8)) ≠ none := by
  decide
theorem witness_RegisterInstructionFrames :
    nextOf (exec .tax (w 0x8001#16 0x80#8)) ≠ none ∧ nextOf (exec .inx (w 0x8001#16 0x80#8)) ≠ none ∧
    nextOf (exec .brk (w 0x8001#16 0x80#8)) ≠ none := by decide
theorem witness_TerminateHalts :
    (at_ 0xFFFE#16 0#8 0#8 []).run = .running ∧ (at_ 0xFFFE#16 0#8 0#8 []).pc ≠ 0xFFFF#16 ∧
    (at_ 0xFFFE#16 0#8 0#8 []).mem.byteAt 0xFFFE = 0x00#8 := by decide
theorem witness_OtherBytesAreFatal :
    (w 0xFFFE#16 0x01#8).run = .running ∧ (w 0xFFFE#16 0x01#8).pc ≠ 0xFFFF#16 ∧
    0x01#8 = (w 0xFFFE#16 0x01#8).mem.byteAt (w 0xFFFE#16 0x01#8).pc.toNat ∧
    0x01#8 ∉ [0x00#8, 0xA1#8, 0xA5#8, 0xA9#8, 0xAA#8, 0xAD#8, 0xB1#8, 0xB5#8, 0xB9#8, 0xBD#8, 0xE8#8] := by decide
theorem witness_StepRunsTheDecodedInstruction :
    (w 0xFFFE#16 0xE8#8).run = .running ∧ (w 0xFFFE#16 0xE8#8).pc ≠ 0xFFFF#16 ∧
    decodeOpcode ((w 0xFFFE#16 0xE8#8).mem.byteAt (w 0xFFFE#16 0xE8#8).pc.toNat) = some .inx ∧ State.reset.run = .halted := by decide
theorem witness_DispatchSelectsOneHandler :
    (w 0xFFFE#16 0xE8#8).run = .running ∧ (w 0xFFFE#16 0xE8#8).pc ≠ 0xFFFF#16 ∧
    0xE8#8 = (w 0xFFFE#16 0xE8#8).mem.byteAt (w 0xFFFE#16 0xE8#8).pc.toNat ∧ 0xE8#8 = opcodeOf .inx ∧
    (w 0x8000#16 0xFF#8).run = .running ∧ (w 0x8000#16 0xFF#8).pc ≠ 0xFFFF#16 ∧
    0xFF#8 = (w 0x8000#16 0xFF#8).mem.byteAt (w 0x8000#16 0xFF#8).pc.toNat ∧ (∀ i : Instr, 0xFF#8 ≠ opcodeOf i) := by
  refine ⟨by decide, by decide, by decide, by decide, by decide, by decide, by decide, fun i => ?_⟩
  cases i <;> decide
theorem witness_FetchAtTheUnbackedAddressFaults :
    (w 0xFFFF#16 0x00#8).run = .running ∧ (w 0xFFFF#16 0x00#8).pc = 0xFFFF#16 := by decide
theorem witness_StepEndsInOneOfThreeWays :
    (w 0x8000#16 0xE8#8).cause = .none ∧ (w 0x8000#16 0xE8#8).run = .running ∧ State.reset.cause = .none := by decide
/-- Covers OnlyTheZeroByteTerminates: a step that terminates and one that does not. -/
theorem witness_OnlyTheZeroByteTerminates :
    (w 0x8000#16 0xE8#8).run = .running ∧ (w 0x8000#16 0xE8#8).cause = .none ∧ causeAfter (w 0x8000#16 0xE8#8) = some .none ∧
    (at_ 0x8000#16 0#8 0#8 []).run = .running ∧ (at_ 0x8000#16 0#8 0#8 []).cause = .none ∧
    causeAfter (at_ 0x8000#16 0#8 0#8 []) = some .terminated := by decide
/-- Covers AddressRangeExactlyAtThreePoints: each point (opcode fetch, operand bytes of one-byte and two-byte modes, data
read), and the last two-operand load that has both its bytes. -/
theorem witness_AddressRangeExactlyAtThreePoints :
    causeAfter (w 0xFFFF#16 0x00#8) = some (.fault (.addressRange 0xFFFF#16)) ∧
    causeAfter (w 0xFFFE#16 0xA5#8) = some (.fault (.addressRange 0xFFFF#16)) ∧
    causeAfter (w 0xFFFD#16 0xAD#8) = some (.fault (.addressRange 0xFFFF#16)) ∧
    causeAfter (at_ 0x8000#16 0#8 0#8 [(0x8000, 0xAD#8), (0x8001, 0xFF#8), (0x8002, 0xFF#8)]) =
      some (.fault (.addressRange 0xFFFF#16)) ∧
    causeAfter (w 0xFFFC#16 0xAD#8) = some .none ∧ (w 0xFFFC#16 0xAD#8).cause = .none := by decide
theorem witness_PcMovesByTheInstructionLength :
    (w 0xFFFC#16 0xAD#8).run = .running ∧ (nextOf (step (w 0xFFFC#16 0xAD#8))).map (fun t => t.run) = some .running := by decide
theorem witness_FaultsArePrecise :
    (w 0xFFFF#16 0x00#8).run = .running ∧ causeAfter (w 0xFFFF#16 0x00#8) = some (.fault (.addressRange 0xFFFF#16)) ∧
    (nextOf (step (w 0x8000#16 0xEA#8))).map (fun t => (t.run, t.cause)) =
      some (.halted, .fault (.unimplementedInstruction 0xEA#8)) := by decide
/-- Covers NoStepWritesMemoryIndexYOrReservedBits, InvariantKeptByEveryStep and InvariantKeptByEveryCommand. -/
theorem witness_invariants :
    (w 0x8000#16 0xE8#8).Inv ∧ nextOf (step (w 0x8000#16 0xE8#8)) ≠ none ∧ State.reset.Inv ∧
    Memory.wf [(0x0000, 0x01#8)] = true := by decide
theorem witness_StatusStaysLegal :
    { w 0x8000#16 0xE8#8 with p := 0x80#8 }.StatusLegal ∧ nextOf (step { w 0x8000#16 0xE8#8 with p := 0x80#8 }) ≠ none ∧
    (idle 0x00#8 0x00#8 0x00#8 0xFF#8 0x0000#16 []).run = .halted := by decide
theorem witness_RunComesBackHalted : State.reset.run = .halted := by decide
theorem witness_AccessSequenceOfEachRow :
    (w 0xFFFC#16 0xAD#8).run = .running ∧ (w 0xFFFC#16 0xAD#8).pc.toNat + 2 < 65535 ∧
    decodeOpcode ((w 0xFFFC#16 0xAD#8).mem.byteAt (w 0xFFFC#16 0xAD#8).pc.toNat) = some .ldaAbs ∧
    0x00#8 = (w 0xFFFC#16 0xAD#8).mem.byteAt ((w 0xFFFC#16 0xAD#8).pc.toNat + 1) ∧
    0x00#8 = (w 0xFFFC#16 0xAD#8).mem.byteAt ((w 0xFFFC#16 0xAD#8).pc.toNat + 2) ∧
    add8 0x00#8 (w 0xFFFC#16 0xAD#8).y =
      (if Instr.ldaAbs = .ldaIndX then add8 0x00#8 (w 0xFFFC#16 0xAD#8).x else add8 0x00#8 (w 0xFFFC#16 0xAD#8).y) := by decide
/-- Another memory that agrees on the accessed byte and differs elsewhere. -/
theorem witness_StepReadsOnlyItsAccesses :
    stepAccesses (w 0x8000#16 0xE8#8) = [0x8000#16] ∧
    (memRead [(0x1234, 0x55#8), (0x8000, 0xE8#8)] 0x8000#16).toOption = (memRead (w 0x8000#16 0xE8#8).mem 0x8000#16).toOption ∧
    nextOf (step (w 0x8000#16 0xE8#8)) ≠ none := by decide
theorem witness_ResetCommand : (idle 0xFF#8 0xFF#8 0xFF#8 0xFF#8 0xFFFF#16 [(0xFFFC, 0x34#8), (0xFFFD, 0x12#8)]).run = .halted := by decide
/-- Covers LoadCommand and LoadAndRunStartsAtTheOrigin: the longest accepted image and the shortest rejected one (D4, D5). -/
theorem witness_LoadCommand_LoadAndRunStartsAtTheOrigin :
    State.reset.run = .halted ∧ State.reset.mem.wf = true ∧ (List.replicate 32767 0xE8#8).length ≤ 32767 ∧
    0x7FFE < (List.replicate 32767 0xE8#8).length ∧ 32767 < (List.replicate 32768 0xE8#8).length := by
  refine ⟨by decide, by decide, ?_, ?_, ?_⟩ <;> rw [List.length_replicate] <;> decide
theorem witness_HostWritesAndReadsBytes :
    State.reset.run = .halted ∧ State.reset.mem.wf = true ∧ (0xFFFE#16 : Word) ≠ 0xFFFF#16 ∧ (0xFFFF#16 : Word) = 0xFFFF#16 := by decide
theorem witness_NoCommandWhileRunning : (w 0x8000#16 0xE8#8).run = .running := by decide

end Sys2Proof.Tests
end

section
/-! PROOFS. 00_scope.md: the arithmetic helpers (R13), and the three ways a step can end (R14). -/

namespace Sys2Proof.Machine

/-- Bit 7 is what the mask 0x80 keeps (00_scope.md R13). -/
theorem bit7_eq_true_iff (v : Byte) : bit7 v = true ↔ v &&& 0x80#8 ≠ 0x00#8 := by
  have hmask : v &&& 0x80#8 = if bit7 v then 0x80#8 else 0x00#8 := BitVec.and_twoPow v 7
  rw [hmask]
  cases bit7 v <;> decide

theorem add16_zext16_toNat (a : Word) (b : Byte) :
    (add16 a (zext16 b)).toNat = (a.toNat + b.toNat) % 2 ^ 16 := by
  rw [add16_toNat, zext16_toNat]

/-- Settles O1, from the number each helper computes and the mask of bit 7. -/
theorem arithmeticWraps : Obligations.ArithmeticWraps :=
  ⟨add8_toNat, add16_toNat, add16_zext16_toNat, fun v => ⟨rfl, bit7_eq_true_iff v⟩⟩

/-- What 00_scope.md R14 lets a step from a Running state leave: a machine that runs on, one that terminated, or one
ended by a fatal condition a step can raise. -/
def State.RunsOnOrEnds (t : State) : Prop :=
  (t.run = .running ∧ t.cause = .none) ∨ t.Final ∨ ∃ f, t.FaultedBy f ∧ f.ofStep = true

theorem State.runsOnOrEnds_of_running {t : State} (hrun : t.run = .running) (hcause : t.cause = .none) :
    t.RunsOnOrEnds := .inl ⟨hrun, hcause⟩

theorem State.terminate_runsOnOrEnds (s : State) : s.terminate.RunsOnOrEnds := .inr (.inl ⟨rfl, rfl⟩)

theorem State.raise_runsOnOrEnds (s : State) {f : Fault} (hf : f.ofStep = true) : (s.raise f).RunsOnOrEnds :=
  .inr (.inr ⟨f, ⟨rfl, rfl⟩, hf⟩)

/-- An opcode byte without a handler is a condition a step can raise (60_exceptions.md R200). -/
theorem ofStep_unimplementedInstruction {b : Byte} (h : decodeOpcode b = none) :
    (Fault.unimplementedInstruction b).ofStep = true := by
  simp [Fault.ofStep, h]

/-- Every meaning answers a next state: a register write or a load runs on, BRK terminates, and a load that raises does
so at 0xFFFF. -/
theorem exec_runsOnOrEnds (i : Instr) {s : State} (hrun : s.run = .running) (hcause : s.cause = .none) :
    ∃ t, exec i s = .next t ∧ t.RunsOnOrEnds := by
  rcases exec_cases i s with ⟨-, he⟩ | ⟨-, he⟩ | ⟨-, he⟩ | ⟨-, v, -, he⟩ | ⟨-, -, he⟩
  · exact ⟨_, he, s.terminate_runsOnOrEnds⟩
  · exact ⟨_, he, State.runsOnOrEnds_of_running hrun hcause⟩
  · exact ⟨_, he, State.runsOnOrEnds_of_running hrun hcause⟩
  · exact ⟨_, he, State.runsOnOrEnds_of_running hrun hcause⟩
  · exact ⟨_, he, s.raise_runsOnOrEnds rfl⟩

/-- A step of a Running machine raises in its fetch, raises in its dispatch, or is the meaning of an instruction. -/
theorem step_runsOnOrEnds {s : State} (hrun : s.run = .running) (hcause : s.cause = .none) :
    ∃ t, step s = .next t ∧ t.RunsOnOrEnds := by
  rcases step_running_cases hrun with ⟨-, hs⟩ | ⟨-, hd, hs⟩ | ⟨-, i, -, hs⟩
  · exact ⟨_, hs, s.raise_runsOnOrEnds rfl⟩
  · exact ⟨_, hs, State.raise_runsOnOrEnds _ (ofStep_unimplementedInstruction hd)⟩
  · rw [hs]
    exact exec_runsOnOrEnds i hrun hcause

/-- Settles O40: a Halted machine's step is the identity, and a Running machine's step is covered by
`step_runsOnOrEnds`. -/
theorem stepEndsInOneOfThreeWays : Obligations.StepEndsInOneOfThreeWays := by
  intro s hcause
  cases hrun : s.run with
  | halted => exact ⟨s, step_halted hrun, nofun⟩
  | running =>
    obtain ⟨t, ht, hends⟩ := step_runsOnOrEnds hrun hcause
    exact ⟨t, ht, fun _ => hends⟩

end Sys2Proof.Machine
end

section
/-! PROOFS. 10_state.md: what a step and a command of the host keep of the state (R23, R28, R29), the memories that exist
(R30, R34), and the state after reset (R33). -/

namespace Sys2Proof.Machine

/-- A meaning leaves the status register as it was, or updates it once (42_alu_and_flags.md R152, R153). -/
theorem exec_p {i : Instr} {s t : State} (h : exec i s = .next t) : t.p = s.p ∨ ∃ v, t.p = setZeroNegative v s.p := by
  rcases exec_cases i s with ⟨-, he⟩ | ⟨-, he⟩ | ⟨-, he⟩ | ⟨-, v, -, he⟩ | ⟨-, -, he⟩ <;> rw [he] at h <;> cases h
  · exact .inl rfl
  · exact .inr ⟨_, rfl⟩
  · exact .inr ⟨_, rfl⟩
  · exact .inr ⟨v, rfl⟩
  · exact .inl rfl

/-- What a step keeps, whether the machine is Running or Halted: memory, index-Y, and the status register but for at
most one flag update. -/
theorem step_next {s t : State} (h : step s = .next t) :
    t.mem = s.mem ∧ t.y = s.y ∧ (t.p = s.p ∨ ∃ v, t.p = setZeroNegative v s.p) := by
  cases hrun : s.run with
  | halted =>
    rw [step_halted hrun] at h
    cases h
    exact ⟨rfl, rfl, .inl rfl⟩
  | running =>
    rcases step_running_cases hrun with ⟨-, hs⟩ | ⟨-, -, hs⟩ | ⟨-, i, -, hs⟩ <;> rw [hs] at h
    · cases h
      exact ⟨rfl, rfl, .inl rfl⟩
    · cases h
      exact ⟨rfl, rfl, .inl rfl⟩
    · obtain ⟨hy, hmem, -⟩ := exec_next h
      exact ⟨hmem, hy, exec_p (s := s.advance 1#16) h⟩

theorem step_mem {s t : State} (h : step s = .next t) : t.mem = s.mem := (step_next h).1

theorem step_y {s t : State} (h : step s = .next t) : t.y = s.y := (step_next h).2.1

theorem step_p {s t : State} (h : step s = .next t) : t.p = s.p ∨ ∃ v, t.p = setZeroNegative v s.p :=
  (step_next h).2.2

/-! ### The invariant -/

/-- Whichever of the three ways a step ends, run and cause are as the invariant wants them. -/
theorem State.RunsOnOrEnds.inv {t : State} (h : t.RunsOnOrEnds) (hmem : t.mem.wf = true) : t.Inv := by
  rcases h with ⟨-, hcause⟩ | ⟨hrun, hcause⟩ | ⟨f, ⟨hrun, hcause⟩, hf⟩
  · exact ⟨hmem, fun _ => hcause, by rw [hcause]; rfl⟩
  · exact ⟨hmem, by simp [hrun], by rw [hcause]; rfl⟩
  · exact ⟨hmem, by simp [hrun], by rw [hcause]; exact hf⟩

/-- Settles O46: a Halted machine's step is the identity; a Running machine's keeps memory and ends in one of the three
ways of 00_scope.md R14. -/
theorem invariantKeptByEveryStep : Obligations.InvariantKeptByEveryStep := by
  intro s t hinv h
  cases hrun : s.run with
  | halted =>
    rw [step_halted hrun] at h
    cases h
    exact hinv
  | running =>
    obtain ⟨hwf, hcause, -⟩ := hinv
    obtain ⟨t', ht', hends⟩ := step_runsOnOrEnds hrun (hcause hrun)
    obtain rfl : t' = t := Host.Outcome.next.inj (ht'.symm.trans h)
    exact hends.inv (by rw [step_mem h]; exact hwf)

/-- The invariant is about run, cause and the form of memory, so a canonical memory may take the place of another. -/
theorem State.Inv.withMem {s : State} (h : s.Inv) {m : Memory} (hm : m.wf = true) : { s with mem := m }.Inv := by
  obtain ⟨-, hcause, hlegal⟩ := h
  exact ⟨hm, hcause, hlegal⟩

theorem State.Inv.beginRun {s : State} (h : s.Inv) : s.beginRun.Inv := by
  obtain ⟨hwf, -, -⟩ := h
  exact ⟨hwf, fun _ => rfl, rfl⟩

/-- `reset` writes no field the invariant speaks of (70_reset_and_hazards.md R231). -/
theorem State.Inv.hostReset {s : State} (h : s.Inv) : (hostReset s).2.Inv := by
  rw [hostReset_eq]
  exact h

/-- Settles O48, by `command_induct`: steps, the start of a run, `reset` and the two kinds of memory write each keep the
invariant. -/
theorem invariantKeptByEveryCommand : Obligations.InvariantKeptByEveryCommand :=
  command_induct invariantKeptByEveryStep
    (fun _ h => h.beginRun)
    (fun _ h => h.hostReset)
    (fun _ _ _ _ h hw => h.withMem (memWrite_wf h.1 hw))
    (fun _ _ bs h => h.withMem (Memory.storeBytes_wf bs _ h.1))

/-- Settles O47: reset lists no byte, and at power-on the machine is Halted with cause None. -/
theorem invariantAtResetAndPowerOn : Obligations.InvariantAtResetAndPowerOn := by
  refine ⟨⟨rfl, nofun, rfl⟩, fun a x y p pc m hm => ?_⟩
  exact ⟨hm, nofun, rfl⟩

/-! ### Index-Y -/

/-- Every command keeps `Y`, as every step does and `reset` leaves it (R23; 70_reset_and_hazards.md R231). -/
theorem command_y (c : Command) (s : State) : (command c s).2.y = s.y :=
  command_induct (Q := fun t => t.y = s.y)
    (fun _ _ hs h => (step_y h).trans hs)
    (fun _ h => h)
    (fun _ h => by rw [hostReset_eq]; exact h)
    (fun _ _ _ _ h _ => h)
    (fun _ _ _ h => h) c s rfl

/-- Settles O60, by induction on the list of commands. -/
theorem indexYNeverChanges : Obligations.IndexYNeverChanges := by
  intro cs
  induction cs with
  | nil => exact fun _ => rfl
  | cons c cs ih => exact fun s => (ih (command c s).2).trans (command_y c s)

/-! ### Memory -/

/-- Settles O8: the memory that stores the bytes of `f` one after another from address 0. -/
theorem everyContentsIsSomeMemory : Obligations.EveryContentsIsSomeMemory := by
  intro f
  refine ⟨Memory.storeBytes [] 0 ((List.range Config.memSize).map f), Memory.storeBytes_wf _ 0 rfl, fun a ha => ?_⟩
  have hlen : a < ((List.range Config.memSize).map f).length := by
    rw [List.length_map, List.length_range]
    exact ha
  have hat := Memory.byteAt_storeBytes_at _ (m := []) 0 hlen rfl (by rw [Nat.zero_add]; exact ha)
  rw [Nat.zero_add] at hat
  rw [hat, List.getElem_map, List.getElem_range]

/-! ### The status register -/

/-- A flag update of a status byte without reserved bits gives a legal value: Zero and Negative are never both set. -/
theorem setZeroNegative_legal {p : Byte} (hp : reservedBits p = 0x00#8) (v : Byte) :
    setZeroNegative v p = 0x00#8 ∨ setZeroNegative v p = 0x02#8 ∨ setZeroNegative v p = 0x80#8 := by
  rw [setZeroNegative_eq, hp]
  by_cases hv : v = 0x00#8
  · subst hv
    exact .inr (.inl rfl)
  · rw [if_neg hv]
    cases bit7 v
    · exact .inl rfl
    · exact .inr (.inr rfl)

theorem State.StatusLegal.reservedBits_eq {s : State} (h : s.StatusLegal) : reservedBits s.p = 0x00#8 := by
  rcases h with h | h | h <;> rw [h] <;> decide

theorem command_reset {s : State} (h : s.run = .halted) : command .reset s = hostReset s := by
  simp only [command, h]

/-- Settles O49: a step keeps `P` or updates its flags, and a legal `P` has no reserved bit. -/
theorem statusStaysLegal : Obligations.StatusStaysLegal := by
  refine ⟨fun s t hlegal h => ?_, fun s hrun => ?_⟩
  · rcases step_p h with hp | ⟨v, hp⟩ <;> unfold State.StatusLegal <;> rw [hp]
    · exact hlegal
    · exact setZeroNegative_legal hlegal.reservedBits_eq v
  · rw [command_reset hrun, hostReset_eq]

/-- Settles O55: `reset` keeps `Y`, memory, run and cause of the power-on state, and its `pc` is the word the unlisted
bytes at the vector read as. -/
theorem stateAfterReset : Obligations.StateAfterReset := by
  refine ⟨rfl, rfl, rfl, rfl, rfl, fun a x p pc => ?_⟩
  rw [command_reset rfl, hostReset_eq]
  rfl

end Sys2Proof.Machine
end

section
/-! PROOFS. 20_memory.md: the byte port and the 16-bit accesses (R51 to R55), the host's accesses (R66), that no step
writes memory (R67), and the access sequence of a step (R61, R68). -/

namespace Sys2Proof.Machine

/-! ### The access sequence of a step -/

theorem stepAccesses_unbacked {s : State} (hrun : s.run = .running) (hpc : s.pc = 0xFFFF#16) :
    stepAccesses s = [s.pc] := by
  rcases fetch_cases s with ⟨hne, -⟩ | ⟨-, hf⟩
  · exact absurd hpc hne
  · simp only [stepAccesses, hrun, hf]

theorem stepAccesses_undecoded {s : State} (hrun : s.run = .running) (hpc : s.pc ≠ 0xFFFF#16)
    (hd : decodeOpcode (s.mem.byteAt s.pc.toNat) = none) : stepAccesses s = [s.pc] := by
  rcases fetch_cases s with ⟨-, hf⟩ | ⟨heq, -⟩
  · simp only [stepAccesses, hrun, hf, hd]
  · exact absurd heq hpc

/-- The mode None is never resolved, so an instruction without operand accesses nothing after its fetch: one equation
serves loads and register instructions alike. -/
theorem stepAccesses_decoded {s : State} {i : Instr} (hrun : s.run = .running) (hpc : s.pc ≠ 0xFFFF#16)
    (hd : decodeOpcode (s.mem.byteAt s.pc.toNat) = some i) :
    stepAccesses s = s.pc :: loadAccesses (modeOf i) (s.advance 1#16) := by
  rcases fetch_cases s with ⟨-, hf⟩ | ⟨heq, -⟩
  · simp only [stepAccesses, hrun, hf, hd]
    by_cases hm : modeOf i = .none
    · rw [if_pos hm, hm]
      rfl
    · rw [if_neg hm]
  · exact absurd heq hpc

/-- A Running machine's step accesses the opcode byte's address first, whatever it finds there (R68). -/
theorem pc_mem_stepAccesses {s : State} (hrun : s.run = .running) : s.pc ∈ stepAccesses s := by
  rcases step_running_cases hrun with ⟨hpc, -⟩ | ⟨hpc, hd, -⟩ | ⟨hpc, i, hd, -⟩
  · simp [stepAccesses_unbacked hrun hpc]
  · simp [stepAccesses_undecoded hrun hpc hd]
  · simp [stepAccesses_decoded hrun hpc hd]

/-! ### The step as an equation, for each thing its fetch can find -/

theorem step_unbacked {s : State} (hrun : s.run = .running) (hpc : s.pc = 0xFFFF#16) :
    step s = .next (s.raise (.addressRange 0xFFFF#16)) := by
  rcases step_running_cases hrun with ⟨-, hs⟩ | ⟨hne, -⟩ | ⟨hne, -⟩
  · exact hs
  · exact absurd hpc hne
  · exact absurd hpc hne

theorem step_undecoded {s : State} {b : Byte} (hrun : s.run = .running) (hpc : s.pc ≠ 0xFFFF#16)
    (hb : s.mem.byteAt s.pc.toNat = b) (hd : decodeOpcode b = none) :
    step s = .next ((s.advance 1#16).raise (.unimplementedInstruction b)) := by
  subst hb
  rcases step_running_cases hrun with ⟨heq, -⟩ | ⟨-, -, hs⟩ | ⟨-, i, hi, -⟩
  · exact absurd heq hpc
  · exact hs
  · rw [hd] at hi
    cases hi

theorem step_decoded {s : State} {b : Byte} {i : Instr} (hrun : s.run = .running) (hpc : s.pc ≠ 0xFFFF#16)
    (hb : s.mem.byteAt s.pc.toNat = b) (hd : decodeOpcode b = some i) : step s = exec i (s.advance 1#16) := by
  subst hb
  rcases step_running_cases hrun with ⟨heq, -⟩ | ⟨-, hn, -⟩ | ⟨-, j, hj, hs⟩
  · exact absurd heq hpc
  · rw [hd] at hn
    cases hn
  · rw [hd] at hj
    cases hj
    exact hs

/-! ### Noninterference of the bytes a step does not access -/

theorem lda_ok {mode : Mode} {s : State} {v : Byte} (h : loadByte mode s = .ok v) (n : Word) :
    lda mode n s = .next (s.loaded v n) := by
  simp only [lda, h]

theorem lda_error {mode : Mode} {s : State} {f : Fault} (h : loadByte mode s = .error f) (n : Word) :
    lda mode n s = .next (s.raise f) := by
  simp only [lda, h]

/-- What an instruction does depends on memory only through the bytes its load accesses, and it keeps the memory it is
given (R67, R68). -/
theorem exec_agree {i : Instr} {s t : State} {m' : Memory} (h : AgreeOn (loadAccesses (modeOf i) s) s.mem m')
    (ht : exec i s = .next t) : exec i { s with mem := m' } = .next { t with mem := m' } := by
  have hload := loadByte_agree h
  rcases exec_cases i s with ⟨rfl, he⟩ | ⟨rfl, he⟩ | ⟨rfl, he⟩ | ⟨hm, v, hv, he⟩ | ⟨hm, hf, he⟩ <;>
    rw [he] at ht <;> cases ht
  · rfl
  · rfl
  · rfl
  · rw [exec_load hm, lda_ok (hload.trans hv)]
    rfl
  · rw [exec_load hm, lda_error (hload.trans hf)]
    rfl

theorem byteAt_eq_of_memRead_eq {m m' : Memory} {addr : Word} (hne : addr ≠ 0xFFFF#16)
    (h : memRead m' addr = memRead m addr) : m'.byteAt addr.toNat = m.byteAt addr.toNat := by
  rw [memRead_backed hne, memRead_backed hne] at h
  exact Except.ok.inj h

theorem RunState.halted_or_running : ∀ r : RunState, r = .halted ∨ r = .running
  | .halted => .inl rfl
  | .running => .inr rfl

/-- Settles O53: both machines fetch the same opcode byte, since the step accesses it; then either the fetch or the
dispatch raises in both, or both run the same instruction, which `exec_agree` covers. -/
theorem stepReadsOnlyItsAccesses : Obligations.StepReadsOnlyItsAccesses := by
  intro s t m' hagree ht
  rcases s.run.halted_or_running with hrun | hrun
  · rw [step_halted hrun] at ht
    cases ht
    exact step_halted hrun
  · have hread : memRead m' s.pc = memRead s.mem s.pc := hagree s.pc (pc_mem_stepAccesses hrun)
    rcases step_running_cases hrun with ⟨hpc, hs⟩ | ⟨hpc, hd, hs⟩ | ⟨hpc, i, hd, hs⟩ <;> rw [hs] at ht
    · cases ht
      exact step_unbacked hrun hpc
    · cases ht
      exact step_undecoded hrun hpc (byteAt_eq_of_memRead_eq hpc hread) hd
    · rw [step_decoded (s := { s with mem := m' }) hrun hpc (byteAt_eq_of_memRead_eq hpc hread) hd]
      rw [stepAccesses_decoded hrun hpc hd] at hagree
      exact exec_agree (s := s.advance 1#16) (fun a ha => hagree a (List.mem_cons_of_mem _ ha)) ht

/-! ### The byte port -/

/-- Settles O3: the only address out of range is 0xFFFF. -/
theorem memReadIsBounded : Obligations.MemReadIsBounded := by
  refine fun m addr => ⟨memRead_ok, fun h => ?_⟩
  obtain rfl : addr = 0xFFFF#16 := (memSize_le_iff addr).1 (Nat.not_lt.2 h)
  exact ⟨rfl, memRead_unbacked m⟩

/-- A byte write below `MEM_SIZE` keeps the canonical form and changes the one byte (R52). -/
theorem memWrite_spec {m : Memory} (hm : m.wf = true) {addr : Word} (h : addr.toNat < Config.memSize) (v : Byte) :
    ∃ m', memWrite m addr v = .ok m' ∧ m'.wf = true ∧ m'.byteAt addr.toNat = v ∧
      ∀ c, c ≠ addr.toNat → m'.byteAt c = m.byteAt c :=
  ⟨_, memWrite_ok h, Memory.store_wf hm h, Memory.byteAt_store_same hm _ v, fun _ => Memory.byteAt_store_other m v⟩

/-- Settles O4: a store changes one byte, 0xFFFF is the only other address, and every instruction keeps memory. -/
theorem memWriteChangesOneByte : Obligations.MemWriteChangesOneByte := by
  refine ⟨fun m addr v hm => ⟨fun h => memWrite_spec hm h v, fun h => ?_⟩, fun i s t ht => ?_⟩
  · obtain rfl : addr = 0xFFFF#16 := (memSize_le_iff addr).1 (Nat.not_lt.2 h)
    exact memWrite_unbacked m v
  · obtain ⟨-, hmem, -⟩ := exec_next ht
    exact hmem

/-- Settles O45: a step keeps memory and `Y` and updates at most the flags of `P`. -/
theorem noStepWritesMemoryIndexYOrReservedBits : Obligations.NoStepWritesMemoryIndexYOrReservedBits := by
  intro s t h
  refine ⟨step_mem h, step_y h, ?_⟩
  rcases step_p h with hp | ⟨v, hp⟩ <;> rw [hp]
  exact reservedBits_setZeroNegative v s.p

/-! ### The 16-bit accesses -/

theorem read16_ok {m : Memory} {addr : Word} (h : addr.toNat + 1 < Config.memSize) :
    read16 m addr = .ok (joinBytes (m.byteAt (addr.toNat + 1)) (m.byteAt addr.toNat)) := by
  rcases read16_cases m addr with ⟨-, he⟩ | ⟨rfl | rfl, -⟩
  · exact he
  · exact absurd h (by decide)
  · exact absurd h (by decide)

theorem ne_top_of_add_lt {addr : Word} {n : Nat} (h : addr.toNat + n < Config.memSize) : addr ≠ 0xFFFF#16 :=
  (lt_memSize_iff addr).1 (Nat.lt_of_le_of_lt (Nat.le_add_right _ n) h)

/-- Where both addresses are backed, `write16` stores both bytes, low byte first (R54). -/
theorem write16_ok {m : Memory} {addr : Word} (w : Word) (h : addr.toNat + 1 < Config.memSize) :
    write16 m addr w = ((m.store addr.toNat (lowByte w)).store (addr.toNat + 1) (highByte w), none) := by
  have hnext : (add16 addr 1#16).toNat = addr.toNat + 1 := add16_one_toNat (ne_top_of_add_lt h)
  rcases write16_cases m addr w with ⟨-, -, he⟩ | ⟨-, htop, -⟩ | ⟨htop, -⟩
  · rw [he, hnext]
  · rw [htop] at hnext
    exact absurd h (by rw [← hnext]; decide)
  · exact absurd htop (ne_top_of_add_lt h)

/-- Settles O5: each byte reads back from its own store, and the two bytes of a word make the word. -/
theorem wordReadsBackAsWritten : Obligations.WordReadsBackAsWritten := by
  intro m addr w hm h
  have hwf := Memory.store_wf (v := lowByte w) hm (Nat.lt_of_succ_lt h)
  refine ⟨_, write16_ok w h, Memory.store_wf hwf h, ?_⟩
  have hhi := Memory.byteAt_store_same hwf (addr.toNat + 1) (highByte w)
  have hlo : ((m.store addr.toNat (lowByte w)).store (addr.toNat + 1) (highByte w)).byteAt addr.toNat = lowByte w := by
    rw [Memory.byteAt_store_other _ _ (Nat.ne_of_lt (Nat.lt_succ_self _)), Memory.byteAt_store_same hm]
  refine ⟨?_, ?_, ?_, fun c hc hc' => ?_⟩
  · rw [read16_ok h, hhi, hlo, joinBytes_parts]
  · rw [hlo, lowByte_toNat]
  · rw [hhi, highByte_toNat]
  · rw [Memory.byteAt_store_other _ _ hc', Memory.byteAt_store_other _ _ hc]

/-- The address is given, so both range checks compute: the low byte is stored, the high byte's write raises (R54). -/
theorem write16_fffe (m : Memory) (w : Word) :
    write16 m 0xFFFE#16 w = (m.store 0xFFFE (lowByte w), some (.addressRange 0xFFFF#16)) := rfl

/-- Settles O6: the range checks compute at the two addresses, and what the write at 0xFFFE leaves is one store. -/
theorem wordAccessAtTheTopRaises : Obligations.WordAccessAtTheTopRaises := by
  intro m w hm
  refine ⟨rfl, rfl, rfl, _, write16_fffe m w, Memory.store_wf hm (by decide), ?_, fun c hc => ?_⟩
  · rw [Memory.byteAt_store_same hm, lowByte_toNat]
  · exact Memory.byteAt_store_other m _ hc

/-! ### The host's accesses -/

theorem command_read {s : State} (h : s.run = .halted) (addr : Word) : command (.read addr) s = hostRead addr s := by
  simp only [command, h]

theorem command_write {s : State} (h : s.run = .halted) (addr : Word) (v : Byte) :
    command (.write addr v) s = hostWrite addr v s := by
  simp only [command, h]

/-- Settles O58: in Halted the host's accesses are the byte port's, with what it raises reported as the answer. -/
theorem hostWritesAndReadsBytes : Obligations.HostWritesAndReadsBytes := by
  intro s addr v hrun hm
  constructor
  · intro hne
    obtain ⟨m', hw, -, hsame, hother⟩ := memWrite_spec hm ((lt_memSize_iff addr).2 hne) v
    refine ⟨m', ?_, ?_, hother⟩
    · simp only [command_write hrun, hostWrite, hw]
    · rw [command_read (s := { s with mem := m' }) hrun]
      simp only [hostRead, memRead_backed hne, hsame]
  · rintro rfl
    rw [command_write hrun, command_read hrun]
    exact ⟨rfl, rfl⟩

/-! ### The addresses each row of the table accesses -/

theorem add16_one_one (w : Word) : add16 (add16 w 1#16) 1#16 = add16 w 2#16 := BitVec.add_assoc w 1#16 1#16

theorem read16Accesses_backed {m : Memory} {addr : Word} (h : addr ≠ 0xFFFF#16) :
    read16Accesses m addr = [addr, add16 addr 1#16] := by
  simp only [read16Accesses, memRead_backed h]

theorem indirectAccesses_backed {m : Memory} {pc : Word} {b : Byte} (hb : memRead m pc = .ok b) (idx : Byte) :
    indirectAccesses m pc idx = pc :: pointerAccesses (add8 b idx) := by
  simp only [indirectAccesses, hb]

section Operands

variable {s : State} {b : Byte} {w addr : Word}

theorem resolve_zeroPage (hb : memRead s.mem s.pc = .ok b) : resolve .zeroPage s = .ok (zext16 b) := by
  rw [resolve, hb]
  rfl

theorem resolve_zeroPageX (hb : memRead s.mem s.pc = .ok b) : resolve .zeroPageX s = .ok (zext16 (add8 b s.x)) := by
  rw [resolve, hb]
  rfl

theorem resolve_absoluteX (hw : read16 s.mem s.pc = .ok w) : resolve .absoluteX s = .ok (add16 w (zext16 s.x)) := by
  rw [resolve, hw]
  rfl

theorem resolve_absoluteY (hw : read16 s.mem s.pc = .ok w) : resolve .absoluteY s = .ok (add16 w (zext16 s.y)) := by
  rw [resolve, hw]
  rfl

theorem loadAccesses_ok {mode : Mode} (h : resolve mode s = .ok addr) :
    loadAccesses mode s = resolveAccesses mode s ++ [addr] := by
  simp only [loadAccesses, h]

/-- A load whose mode reads a two-byte operand, whatever it adds to the word (R135 to R137). -/
theorem loadAccesses_of_read16 {mode : Mode} (hmode : resolveAccesses mode s = read16Accesses s.mem s.pc)
    (hpc : s.pc ≠ 0xFFFF#16) (h : resolve mode s = .ok addr) :
    loadAccesses mode s = [s.pc, add16 s.pc 1#16, addr] := by
  rw [loadAccesses_ok h, hmode, read16Accesses_backed hpc]
  rfl

/-- A load whose mode reads a pointer in the zero page, whichever register indexes it (R138, R139). -/
theorem loadAccesses_of_indirect {mode : Mode} {idx q : Byte}
    (hmode : resolveAccesses mode s = indirectAccesses s.mem s.pc idx)
    (hresolve : resolve mode s = memRead s.mem s.pc >>= fun b => pointerWord s.mem (add8 b idx))
    (hb : memRead s.mem s.pc = .ok b) (hq : q = add8 b idx) :
    loadAccesses mode s =
      [s.pc, zext16 q, zext16 (add8 q 1#8), joinBytes (s.mem.byteAt (add8 q 1#8).toNat) (s.mem.byteAt q.toNat)] := by
  subst hq
  rw [hb] at hresolve
  rw [loadAccesses_ok (hresolve.trans (pointerWord_eq _ _)), hmode, indirectAccesses_backed hb]
  rfl

end Operands

/-- Settles O52: the opcode byte's address, then what a load in the row's mode accesses with both operand bytes
backed. -/
theorem accessSequenceOfEachRow : Obligations.AccessSequenceOfEachRow := by
  intro s i b c q hrun hlt hd hb hc hq
  have hpc : s.pc ≠ 0xFFFF#16 := ne_top_of_add_lt hlt
  have hnext : (s.advance 1#16).pc.toNat = s.pc.toNat + 1 := add16_one_toNat hpc
  have hlt' : (s.advance 1#16).pc.toNat + 1 < Config.memSize := by rw [hnext]; exact hlt
  have hpc' : (s.advance 1#16).pc ≠ 0xFFFF#16 := ne_top_of_add_lt hlt'
  have hbyte : memRead (s.advance 1#16).mem (s.advance 1#16).pc = .ok b := by
    rw [memRead_backed hpc', hnext, hb]
    rfl
  have hword : read16 (s.advance 1#16).mem (s.advance 1#16).pc = .ok (joinBytes c b) := by
    rw [read16_ok hlt', hnext, hb, hc]
    rfl
  rw [stepAccesses_decoded hrun hpc hd, ← add16_one_one]
  cases i with
  | brk | tax | inx => rfl
  | ldaImm => rfl
  | ldaZp => exact congrArg (s.pc :: ·) (loadAccesses_ok (resolve_zeroPage hbyte))
  | ldaZpX => exact congrArg (s.pc :: ·) (loadAccesses_ok (resolve_zeroPageX hbyte))
  | ldaAbs => exact congrArg (s.pc :: ·) (loadAccesses_of_read16 rfl hpc' hword)
  | ldaAbsX => exact congrArg (s.pc :: ·) (loadAccesses_of_read16 rfl hpc' (resolve_absoluteX hword))
  | ldaAbsY => exact congrArg (s.pc :: ·) (loadAccesses_of_read16 rfl hpc' (resolve_absoluteY hword))
  | ldaIndX | ldaIndY => exact congrArg (s.pc :: ·) (loadAccesses_of_indirect rfl rfl hbyte hq)

end Sys2Proof.Machine
end

section
/-! PROOFS. 30_encoding.md: the opcode map (R86, R88), the round trip of the byte-stream decoder (R80 to R85, R93), and what
a step does with a byte that has no handler (R191, R201). -/

namespace Sys2Proof.Machine

/-! ### The opcode map -/

theorem decodeOpcode_eq_some_iff {b : Byte} {i : Instr} : decodeOpcode b = some i ↔ b = opcodeOf i := by
  constructor
  · exact opcodeOf_of_decodeOpcode
  · rintro rfl
    exact decodeOpcode_opcodeOf i

theorem decodeOpcode_eq_none_iff {b : Byte} : decodeOpcode b = none ↔ ∀ i, b ≠ opcodeOf i := by
  simp only [Option.eq_none_iff_forall_ne_some, ne_eq, decodeOpcode_eq_some_iff]

/-- Settles O9: the map evaluated at each of the sixteen bytes. -/
theorem opcodeBytesDecode : Obligations.OpcodeBytesDecode := by
  unfold Obligations.OpcodeBytesDecode
  decide

/-- The eleven instructions, as a list to count their opcode bytes by. -/
def allInstrs : List Instr :=
  [.brk, .ldaIndX, .ldaZp, .ldaImm, .tax, .ldaAbs, .ldaIndY, .ldaZpX, .ldaAbsY, .ldaAbsX, .inx]

theorem mem_allInstrs (i : Instr) : i ∈ allInstrs := by
  cases i <;> decide

/-- The opcode bytes as numbers. -/
def opcodeNumbers : List Nat := allInstrs.map fun i => (opcodeOf i).toNat

theorem mem_opcodeNumbers_iff {n : Nat} :
    n ∈ opcodeNumbers ↔ n < 256 ∧ (decodeOpcode (BitVec.ofNat 8 n)).isSome := by
  constructor
  · intro h
    obtain ⟨i, -, rfl⟩ := List.mem_map.1 h
    refine ⟨(opcodeOf i).isLt, ?_⟩
    rw [BitVec.ofNat_toNat, BitVec.setWidth_eq, decodeOpcode_opcodeOf]
    rfl
  · rintro ⟨hlt, hsome⟩
    obtain ⟨i, hi⟩ := Option.isSome_iff_exists.1 hsome
    refine List.mem_map.2 ⟨i, mem_allInstrs i, ?_⟩
    rw [← opcodeOf_of_decodeOpcode hi, BitVec.toNat_ofNat, Nat.mod_eq_of_lt hlt]

/-- The byte values with a handler are the opcode bytes, each once. -/
theorem length_handledBytes : ((List.range 256).filter fun n => (decodeOpcode (BitVec.ofNat 8 n)).isSome).length = 11 := by
  have hnodup : opcodeNumbers.Nodup := by decide
  refine ((List.perm_ext_iff_of_nodup (List.nodup_range.filter _) hnodup).2 fun n => ?_).length_eq
  rw [mem_opcodeNumbers_iff, List.mem_filter, List.mem_range]

/-- Settles O10: the map inverts `opcodeOf`, and the eleven of the 256 byte values with a handler leave 245. -/
theorem opcodeMapIsExact : Obligations.OpcodeMapIsExact := by
  refine ⟨fun b i => decodeOpcode_eq_some_iff, ?_⟩
  have hsplit := List.length_eq_length_filter_add (l := List.range 256)
    fun n => (decodeOpcode (BitVec.ofNat 8 n)).isSome
  simp only [length_handledBytes, List.length_range, Option.not_isSome] at hsplit
  omega

/-- Settles O35: no instruction's opcode byte is outside the list, so the byte has no handler and the dispatch raises. -/
theorem otherBytesAreFatal : Obligations.OtherBytesAreFatal := by
  intro s b hrun hpc hb hother
  have hd : decodeOpcode b = none := by
    rw [decodeOpcode_eq_none_iff]
    rintro i rfl
    revert hother
    cases i <;> decide
  exact ⟨_, step_undecoded hrun hpc hb.symm hd, rfl, rfl⟩

/-! ### One instruction -/

theorem length_encode {c : Code} (h : c.WellFormed) : (encode c).length = lengthOf c.op := by
  rw [encode, List.length_cons, h, lengthOf, Nat.add_comm]

/-- The opcode byte selects the instruction, and its mode takes as many bytes as the code has operands (R80, R85). -/
theorem decode_encode_append {c : Code} (h : c.WellFormed) (rest : List Byte) :
    decode (encode c ++ rest) = .ok (c, rest) := by
  have htake : takeBytes (operandCount c.op) (c.operands ++ rest) = some (c.operands, rest) := by
    rw [← h]
    exact takeBytes_append c.operands rest
  simp only [encode, List.cons_append, decode, decodeOpcode_opcodeOf, htake]

/-- The converse: `decode` answers only where it has read the opcode byte and all operand bytes of its format (R93). -/
theorem decode_ok {bs rest : List Byte} {c : Code} (h : decode bs = .ok (c, rest)) :
    c.WellFormed ∧ bs = encode c ++ rest := by
  cases bs with
  | nil => cases h
  | cons b bs =>
    cases hd : decodeOpcode b with
    | none =>
      simp only [decode, hd] at h
      cases h
    | some i =>
      cases ht : takeBytes (operandCount i) bs with
      | none =>
        simp only [decode, hd, ht] at h
        cases h
      | some r =>
        simp only [decode, hd, ht] at h
        cases h
        obtain ⟨hlen, hbs⟩ := takeBytes_some ht
        refine ⟨hlen, ?_⟩
        rw [opcodeOf_of_decodeOpcode hd, hbs]
        rfl

/-- Settles O11, from what `decode` answers on an encoding and the encoding's length. -/
theorem codeReadsBack : Obligations.CodeReadsBack :=
  fun _ rest h => ⟨decode_encode_append h rest, length_encode h⟩

/-- Settles O12, the inversion of `decode`. -/
theorem onlyEncodingsAreRead : Obligations.OnlyEncodingsAreRead := fun _ _ _ => decode_ok

/-! ### A program -/

theorem decodeAll_nil (fuel : Nat) : decodeAll fuel [] = .ok [] := by
  cases fuel <;> rfl

theorem decodeAll_succ {bs rest : List Byte} {c : Code} {cs : List Code} {fuel : Nat} (h : decode bs = .ok (c, rest))
    (hrest : decodeAll fuel rest = .ok cs) : decodeAll (fuel + 1) bs = .ok (c :: cs) := by
  cases bs with
  | nil => cases h
  | cons b bs => simp only [decodeAll, h, hrest]

/-- One unit of fuel for each instruction is enough. -/
theorem decodeAll_encodeAll {cs : List Code} (hwf : ∀ c ∈ cs, c.WellFormed) {fuel : Nat} (hfuel : cs.length ≤ fuel) :
    decodeAll fuel (encodeAll cs) = .ok cs := by
  induction cs generalizing fuel with
  | nil => exact decodeAll_nil fuel
  | cons c cs ih =>
    obtain ⟨hc, hcs⟩ := List.forall_mem_cons.1 hwf
    obtain ⟨n, rfl⟩ := Nat.exists_eq_add_of_lt hfuel
    rw [encodeAll_cons]
    exact decodeAll_succ (decode_encode_append hc _) (ih hcs (Nat.le_add_right _ n))

/-- Every instruction has its opcode byte, so a program has at least as many bytes as instructions (R80). -/
theorem length_le_length_encodeAll (cs : List Code) : cs.length ≤ (encodeAll cs).length := by
  induction cs with
  | nil => exact Nat.le_refl 0
  | cons c cs ih =>
    have hpos : 0 < (encode c).length := List.length_pos_of_ne_nil (encode_ne_nil c)
    rw [encodeAll_cons, List.length_append, List.length_cons]
    omega

/-- Settles O13: the number of bytes is fuel enough, and with enough fuel the program reads back. -/
theorem programsReadBack : Obligations.ProgramsReadBack :=
  fun cs hwf => decodeAll_encodeAll hwf (length_le_length_encodeAll cs)

end Sys2Proof.Machine
end

section
/-! PROOFS. 40_fetch_decode_execute.md: the opcode fetch and the dispatch (R110 to R113), how far a step moves `pc`
(R114, R118), and the bound of every run (R119). -/

namespace Sys2Proof.Machine

/-! ### How far a step moves `pc` -/

theorem add16_ofNat_toNat {w : Word} {n : Nat} (h : w.toNat + n ≤ Config.memSize) :
    (add16 w (BitVec.ofNat 16 n)).toNat = w.toNat + n := by
  simp only [Config.memSize] at h
  rw [add16_toNat, BitVec.toNat_ofNat]
  omega

theorem Mode.operandBytes_le (mode : Mode) : mode.operandBytes ≤ 2 := by
  cases mode <;> decide

/-- A load that has its data byte has read all its operand bytes, so they lie below `MEM_SIZE`. Immediate reads its one
operand as the data byte; the resolver reads those of the other modes. -/
theorem operands_backed_of_loadByte {mode : Mode} {s : State} {v : Byte} (hm : mode ≠ .none)
    (h : loadByte mode s = .ok v) : s.pc.toNat + mode.operandBytes ≤ Config.memSize := by
  obtain ⟨addr, hr, hne⟩ : ∃ addr, resolve mode s = .ok addr ∧ addr ≠ 0xFFFF#16 := by
    rcases loadByte_cases mode s with ⟨addr, hr, hne, -⟩ | ⟨-, he⟩ | ⟨f, -, he⟩
    · exact ⟨addr, hr, hne⟩
    · cases he.symm.trans h
    · cases he.symm.trans h
  have hok : ¬ ((mode ≠ .immediate ∧ s.pc = 0xFFFF#16) ∨ (mode.operandBytes = 2 ∧ s.pc = 0xFFFE#16)) :=
    mt (resolve_raises_iff hm).2 (by rw [hr]; exact nofun)
  have hpc : s.pc ≠ 0xFFFF#16 := by
    intro htop
    by_cases himm : mode = .immediate
    · subst himm
      exact hne ((Except.ok.inj hr).symm.trans htop)
    · exact hok (.inl ⟨himm, htop⟩)
  by_cases h2 : mode.operandBytes = 2
  · have hlt := lt_of_ne_top hpc fun h => hok (.inr ⟨h2, h⟩)
    omega
  · have hlt := (lt_memSize_iff s.pc).2 hpc
    have hle := mode.operandBytes_le
    omega

/-- Every meaning halts the machine, or moves `pc` over its operand bytes without wrapping (R114, R118). -/
theorem exec_halts_or_skips_operands (i : Instr) (s : State) :
    ∃ t, exec i s = .next t ∧ (t.run = .halted ∨ t.pc.toNat = s.pc.toNat + operandCount i) := by
  rcases exec_cases i s with ⟨-, he⟩ | ⟨rfl, he⟩ | ⟨rfl, he⟩ | ⟨hm, v, hv, he⟩ | ⟨-, -, he⟩
  · exact ⟨_, he, .inl rfl⟩
  · exact ⟨_, he, .inr rfl⟩
  · exact ⟨_, he, .inr rfl⟩
  · exact ⟨_, he, .inr (add16_ofNat_toNat (operands_backed_of_loadByte hm hv))⟩
  · exact ⟨_, he, .inl rfl⟩

/-- A step of a Running machine halts it, or moves `pc` by the length of the instruction it decoded: one for the
generic advance, and the operand bytes. -/
theorem step_halts_or_moves_pc {s : State} (hrun : s.run = .running) :
    ∃ t, step s = .next t ∧ (t.run = .halted ∨
      ∃ i, decodeOpcode (s.mem.byteAt s.pc.toNat) = some i ∧ t.pc.toNat = s.pc.toNat + lengthOf i) := by
  rcases step_running_cases hrun with ⟨-, hs⟩ | ⟨-, -, hs⟩ | ⟨hpc, i, hd, hs⟩
  · exact ⟨_, hs, .inl rfl⟩
  · exact ⟨_, hs, .inl rfl⟩
  · obtain ⟨t, he, hhalted | hskip⟩ := exec_halts_or_skips_operands i (s.advance 1#16)
    · exact ⟨t, hs.trans he, .inl hhalted⟩
    · refine ⟨t, hs.trans he, .inr ⟨i, hd, ?_⟩⟩
      rw [hskip, State.advance_pc, add16_one_toNat hpc, lengthOf, Nat.add_assoc]

/-! ### The bound of every run -/

/-- The distance of `pc` to 0x10000 is a bound: `pc` is never at that distance 0, and each step that goes on comes
nearer. -/
theorem runLoop_halts {n : Nat} {s : State} (hn : 0x10000 ≤ s.pc.toNat + n) : (runLoop n s).run = .halted := by
  induction n generalizing s with
  | zero => exact absurd s.pc.isLt (Nat.not_lt.2 hn)
  | succ n ih =>
    rcases s.run.halted_or_running with hrun | hrun
    · rw [runLoop_halted hrun, hrun]
    · obtain ⟨t, ht, hhalted | ⟨i, -, hpc⟩⟩ := step_halts_or_moves_pc hrun
      · rw [runLoop_running hrun ht, runLoop_halted hhalted, hhalted]
      · rw [runLoop_running hrun ht]
        apply ih
        rw [hpc, lengthOf]
        omega

/-- Settles O50, by induction on the distance of `pc` to 0x10000 (`runLoop_halts`). -/
theorem everyRunEnds : Obligations.EveryRunEnds := by
  intro s
  apply runLoop_halts
  omega

/-- Settles O43: the step's one answer is the one `step_halts_or_moves_pc` describes, and it is not Halted. -/
theorem pcMovesByTheInstructionLength : Obligations.PcMovesByTheInstructionLength := by
  intro s t hrun ht htrun
  obtain ⟨t', ht', hends⟩ := step_halts_or_moves_pc hrun
  obtain rfl : t' = t := Host.Outcome.next.inj (ht'.symm.trans ht)
  rcases hends with hhalted | hmoves
  · cases hhalted.symm.trans htrun
  · exact hmoves

/-! ### The fetch and the dispatch -/

/-- The decoder reads a table word's instruction from its first byte. -/
theorem decodeOpcode_tableByte {nbits w : Nat} {i : Instr} (h : decodeTableWord nbits w = some i) :
    decodeOpcode (tableByte nbits w 0) = some i := by
  cases hd : decode (tableBytes nbits w) with
  | error e =>
    simp only [decodeTableWord, hd] at h
    cases h
  | ok r =>
    simp only [decodeTableWord, hd, Option.some.injEq] at h
    obtain ⟨-, hbytes⟩ := decode_ok hd
    obtain ⟨hfirst, -⟩ := List.cons.inj hbytes
    rw [hfirst, h, decodeOpcode_opcodeOf]

/-- The first byte placed is the one the next fetch reads. -/
theorem State.byteAt_withFetchWord {s : State} (hm : s.mem.wf = true) (hpc : s.pc ≠ 0xFFFF#16) (nbits w : Nat) :
    (s.withFetchWord nbits w).mem.byteAt s.pc.toNat = tableByte nbits w 0 :=
  Memory.byteAt_storeBytes_at (tableBytes nbits w) s.pc.toNat (i := 0) (Nat.zero_lt_succ 2) hm
    ((lt_memSize_iff s.pc).2 hpc)

/-- Settles O14: the placed state is Running, and its fetch reads the first placed byte. -/
theorem placedWordIsRunNext : Obligations.PlacedWordIsRunNext := by
  intro s nbits w i hm hpc hd
  exact step_decoded (s := s.withFetchWord nbits w) rfl hpc (State.byteAt_withFetchWord hm hpc nbits w)
    (decodeOpcode_tableByte hd)

/-- No two instructions share an opcode byte: the decoder tells them apart (30_encoding.md R86). -/
theorem opcodeOf_injective : Function.Injective opcodeOf := by
  intro i j h
  rw [← Option.some.injEq, ← decodeOpcode_opcodeOf i, h, decodeOpcode_opcodeOf]

/-- Settles O37: an opcode byte decodes to its one instruction, and a byte that is none's to no instruction. -/
theorem dispatchSelectsOneHandler : Obligations.DispatchSelectsOneHandler := by
  intro s b hrun hpc hb
  refine ⟨fun i hi => ?_, fun i j hi hj => opcodeOf_injective (hi.symm.trans hj), fun hnone => ?_⟩
  · exact step_decoded hrun hpc hb.symm (decodeOpcode_eq_some_iff.2 hi)
  · exact ⟨_, step_undecoded hrun hpc hb.symm (decodeOpcode_eq_none_iff.2 hnone), rfl, rfl⟩

/-- Settles O36, from the step's equations for a decoded byte and for a Halted machine. -/
theorem stepRunsTheDecodedInstruction : Obligations.StepRunsTheDecodedInstruction :=
  ⟨fun _ _ hrun hpc hd => step_decoded hrun hpc rfl hd, fun _ hrun => step_halted hrun⟩

/-- Settles O38: the step's equation for a fetch at 0xFFFF, whose fault entry is that record update. -/
theorem fetchAtTheUnbackedAddressFaults : Obligations.FetchAtTheUnbackedAddressFaults :=
  fun _ hrun hpc => step_unbacked hrun hpc

end Sys2Proof.Machine
end

section
/-! PROOFS. 41_addressing_modes.md: the address each mode resolves to and when it raises (R131 to R139), that the mode None
is never resolved by a step (R140), and that the resolver depends on `pc`, `X`, `Y` and memory alone (R142). -/

namespace Sys2Proof.Machine

/-! ### When a mode raises -/

theorem resolve_unbacked {mode : Mode} {s : State} (hnone : mode ≠ .none) (himm : mode ≠ .immediate)
    (hpc : s.pc = 0xFFFF#16) : resolve mode s = .error (.addressRange 0xFFFF#16) :=
  (resolve_raises_iff hnone).2 (.inl ⟨himm, hpc⟩)

theorem eq_top_or_eq_fffe {w : Word} (h : 0xFFFE ≤ w.toNat) : w = 0xFFFF#16 ∨ w = 0xFFFE#16 := by
  rw [word_eq_iff w 0xFFFF (by decide), word_eq_iff w 0xFFFE (by decide)]
  omega

/-- A mode with two operand bytes raises where the second has no byte in memory, as where the first has none
(R135 to R137). -/
theorem resolve_twoBytes_unbacked {mode : Mode} {s : State} (hmode : mode.operandBytes = 2) (h : 0xFFFE ≤ s.pc.toNat) :
    resolve mode s = .error (.addressRange 0xFFFF#16) := by
  have hnone : mode ≠ .none := by rintro rfl; cases hmode
  have himm : mode ≠ .immediate := by rintro rfl; cases hmode
  rcases eq_top_or_eq_fffe h with hpc | hpc
  · exact resolve_unbacked hnone himm hpc
  · exact (resolve_raises_iff hnone).2 (.inr ⟨hmode, hpc⟩)

/-! ### The zero page -/

theorem resolve_zeroPageY {s : State} {b : Byte} (hb : memRead s.mem s.pc = .ok b) :
    resolve .zeroPageY s = .ok (zext16 (add8 b s.y)) := by
  rw [resolve, hb]
  rfl

/-- A mode that zero-extends a byte, or else raises, never resolves outside page 0 (R132 to R134). -/
theorem resolve_le_of_zext16 {mode : Mode} {s : State} {b : Byte} (hnone : mode ≠ .none) (himm : mode ≠ .immediate)
    (hok : s.pc ≠ 0xFFFF#16 → resolve mode s = .ok (zext16 b)) {addr : Word} (h : resolve mode s = .ok addr) :
    addr.toNat ≤ 0xFF := by
  by_cases hpc : s.pc = 0xFFFF#16
  · cases (resolve_unbacked hnone himm hpc).symm.trans h
  · obtain rfl : zext16 b = addr := Except.ok.inj ((hok hpc).symm.trans h)
    exact Nat.le_of_lt_succ (zext16_lt b)

/-- Settles O15: where `pc` is backed each mode computes on the byte there, and where it is not, that read raises. -/
theorem singleByteModesResolve : Obligations.SingleByteModesResolve := by
  intro s
  have hzp : s.pc ≠ 0xFFFF#16 → resolve .zeroPage s = _ := fun hpc => resolve_zeroPage (memRead_backed hpc)
  have hzpx : s.pc ≠ 0xFFFF#16 → resolve .zeroPageX s = _ := fun hpc => resolve_zeroPageX (memRead_backed hpc)
  refine ⟨rfl, fun hpc => ⟨hzp hpc, hzpx hpc⟩, fun hpc => ⟨?_, ?_, ?_⟩, ?_, rfl, rfl, rfl⟩
  · rw [hpc, memRead_unbacked]
  · exact resolve_unbacked (by decide) (by decide) hpc
  · exact resolve_unbacked (by decide) (by decide) hpc
  · rintro addr (h | h)
    · exact resolve_le_of_zext16 (by decide) (by decide) hzp h
    · exact resolve_le_of_zext16 (by decide) (by decide) hzpx h

/-- Settles O16: ZeroPageY computes on the byte at `pc` as ZeroPageX does, and each opcode declares another mode. -/
theorem zeroPageYResolvesButNoOpcodeUsesIt : Obligations.ZeroPageYResolvesButNoOpcodeUsesIt := by
  refine ⟨fun s => ?_, fun i => by cases i <;> decide, rfl⟩
  have hzpy : s.pc ≠ 0xFFFF#16 → resolve .zeroPageY s = _ := fun hpc => resolve_zeroPageY (memRead_backed hpc)
  exact ⟨hzpy, resolve_unbacked (by decide) (by decide), fun _ => resolve_le_of_zext16 (by decide) (by decide) hzpy⟩

/-! ### Two operand bytes -/

/-- Any word is the Absolute address once it is written where `pc` points (R53, R135). -/
theorem exists_resolve_absolute (w : Word) : ∃ s : State, resolve .absolute s = .ok w := by
  obtain ⟨m, -, -, hread, -⟩ := wordReadsBackAsWritten [] 0x0000#16 w rfl (by decide)
  exact ⟨{ State.reset with pc := 0x0000#16, mem := m }, hread⟩

/-- Settles O17: the three modes share the word at `pc`, and the operand count that says where they raise. -/
theorem absoluteModesResolve : Obligations.AbsoluteModesResolve := by
  refine ⟨fun s => ⟨fun h => ?_, fun h => ?_⟩, exists_resolve_absolute, rfl, rfl, rfl⟩
  · have hword := read16_ok (m := s.mem) (Nat.succ_lt_succ h)
    exact ⟨hword, resolve_absoluteX hword, resolve_absoluteY hword⟩
  · exact ⟨resolve_twoBytes_unbacked rfl h, resolve_twoBytes_unbacked rfl h, resolve_twoBytes_unbacked rfl h⟩

/-! ### Pointers in the zero page -/

theorem resolve_indirectX {s : State} {b : Byte} (hb : memRead s.mem s.pc = .ok b) :
    resolve .indirectX s = pointerWord s.mem (add8 b s.x) := by
  rw [resolve, hb]
  rfl

theorem resolve_indirectY {s : State} {b : Byte} (hb : memRead s.mem s.pc = .ok b) :
    resolve .indirectY s = pointerWord s.mem (add8 b s.y) := by
  rw [resolve, hb]
  rfl

/-- The byte after the last of page 0 is its first (R138). -/
theorem pointerWord_pageEnd (m : Memory) :
    pointerWord m 0xFF#8 = .ok (joinBytes (m.byteAt 0x0000) (m.byteAt 0x00FF)) := pointerWord_eq m 0xFF#8

/-- Settles O18: both modes read the pointer their register indexes, and a pointer read wraps inside page 0. -/
theorem indirectModesResolve : Obligations.IndirectModesResolve := by
  refine fun s => ⟨fun hpc => ?_, fun hpc b hb => ?_⟩
  · exact ⟨resolve_unbacked (by decide) (by decide) hpc, resolve_unbacked (by decide) (by decide) hpc⟩
  · have hread : memRead s.mem s.pc = .ok b := by rw [memRead_backed hpc, hb]
    rw [resolve_indirectX hread, resolve_indirectY hread]
    refine ⟨pointerWord_eq _ _, pointerWord_eq _ _, fun hptr => ?_, fun hptr => ?_⟩
    · rw [hptr, pointerWord_pageEnd]
    · rw [hptr, pointerWord_pageEnd]

/-! ### The mode None -/

/-- A meaning leaves the cause as it was, or records the normal end or a condition a step can raise (R190, R200). -/
theorem exec_cause {i : Instr} {s t : State} (h : exec i s = .next t) :
    t.cause = s.cause ∨ t.cause.legal = true := by
  rcases exec_cases i s with ⟨-, he⟩ | ⟨-, he⟩ | ⟨-, he⟩ | ⟨-, v, -, he⟩ | ⟨-, -, he⟩ <;> rw [he] at h <;> cases h
  · exact .inr rfl
  · exact .inl rfl
  · exact .inl rfl
  · exact .inl rfl
  · exact .inr rfl

/-- A step leaves the cause as it was, or records one the invariant allows, from any state whatever (R200). -/
theorem step_cause {s t : State} (h : step s = .next t) : t.cause = s.cause ∨ t.cause.legal = true := by
  rcases s.run.halted_or_running with hrun | hrun
  · rw [step_halted hrun] at h
    cases h
    exact .inl rfl
  · rcases step_running_cases hrun with ⟨-, hs⟩ | ⟨-, hd, hs⟩ | ⟨-, i, -, hs⟩ <;> rw [hs] at h
    · cases h
      exact .inr rfl
    · cases h
      exact .inr (ofStep_unimplementedInstruction hd)
    · exact exec_cause (s := s.advance 1#16) h

/-- Settles O19: UnsupportedAddressingMode is no legal cause, so a step that leaves it has found it. -/
theorem resolvingNoneRaisesAndNoStepDoesIt : Obligations.ResolvingNoneRaisesAndNoStepDoesIt := by
  refine ⟨fun _ => rfl, fun s t m ht hs hcause => ?_⟩
  rcases step_cause ht with hkept | hlegal
  · exact hs (hkept.symm.trans hcause)
  · rw [hcause] at hlegal
    cases hlegal

/-! ### Purity -/

/-- Settles O20: the definition of `resolve` names no other field of the state. -/
theorem resolverIsPure : Obligations.ResolverIsPure := by
  intro mode s t hpc hx hy hmem
  unfold resolve
  rw [hpc, hx, hy, hmem]

end Sys2Proof.Machine
end

section
/-! PROOFS. 42_alu_and_flags.md: the flag update, its frame and its value, and the byte each instruction calls it with
(R152, R153). -/

namespace Sys2Proof.Machine

/-! ### The status byte after a flag update -/

theorem getLsbD_bitMask_of_ne {i j : Nat} (hij : i ≠ j) : (bitMask j).getLsbD i = false := by
  have hmask : bitMask j = BitVec.twoPow 8 j := rfl
  rw [hmask, BitVec.getLsbD_twoPow, decide_eq_false hij.symm, Bool.and_false]

theorem getLsbD_setBit_of_ne {i j : Nat} (hi : i < 8) (hij : i ≠ j) (p : Byte) (b : Bool) :
    (setBit p j b).getLsbD i = p.getLsbD i := by
  cases b with
  | true => simp only [setBit, if_true, BitVec.getLsbD_or, getLsbD_bitMask_of_ne hij, Bool.or_false]
  | false =>
    simp only [setBit, Bool.false_eq_true, if_false, BitVec.getLsbD_and, BitVec.getLsbD_not, hi,
      getLsbD_bitMask_of_ne hij, decide_true, Bool.not_false, Bool.and_true]

/-- Each of the two bit writes leaves every other bit. -/
theorem getLsbD_setZeroNegative_of_ne {i : Nat} (hi : i < 8) (hz : i ≠ Config.zBit) (hn : i ≠ Config.nBit)
    (v p : Byte) : (setZeroNegative v p).getLsbD i = p.getLsbD i := by
  rw [setZeroNegative, getLsbD_setBit_of_ne hi hn, getLsbD_setBit_of_ne hi hz]

theorem bit7_eq_decide (v : Byte) : bit7 v = decide (0x80 ≤ v.toNat) := BitVec.msb_eq_decide v

/-- Zero says the byte is 0x00, and 0x00 has bit 7 clear. -/
theorem not_zero_and_negative (v p : Byte) :
    ¬ (zeroFlag (setZeroNegative v p) = true ∧ negativeFlag (setZeroNegative v p) = true) := by
  rw [zeroFlag_setZeroNegative, negativeFlag_setZeroNegative]
  rintro ⟨hzero, hneg⟩
  rw [of_decide_eq_true hzero] at hneg
  cases hneg

/-- With no reserved bit set, the flags are the whole byte. -/
theorem setZeroNegative_of_reservedBits_zero {p : Byte} (hp : reservedBits p = 0x00#8) (v : Byte) :
    setZeroNegative v p = if v = 0x00#8 then 0x02#8 else if v.toNat < 0x80 then 0x00#8 else 0x80#8 := by
  rw [setZeroNegative_eq, hp, bit7_eq_decide]
  by_cases hv : v = 0x00#8
  · subst hv
    rfl
  · by_cases hlt : v.toNat < 0x80
    · simp [hv, hlt]
    · simp [hv, hlt, Nat.not_lt.1 hlt]

/-! ### The byte an instruction updates the flags with -/

/-- An instruction that leaves the machine Running has written one register, the new `X` or the new `A`, and updated the
flags with it; termination and a fault halt the machine. -/
theorem exec_p_of_running {i : Instr} {s t : State} (h : exec i s = .next t) (ht : t.run = .running) :
    t.p = setZeroNegative (if modeOf i = .none then t.x else t.a) s.p := by
  rcases exec_cases i s with ⟨-, he⟩ | ⟨rfl, he⟩ | ⟨rfl, he⟩ | ⟨hm, v, -, he⟩ | ⟨-, -, he⟩ <;> rw [he] at h <;> cases h
  · cases ht
  · rfl
  · rfl
  · rw [if_neg hm]
    rfl
  · cases ht

/-- Settles O2, from the flags, the frame and the value of `setZeroNegative`; the mask 0x7D of the statement keeps the
reserved bits where the flags stand at bits 1 and 7. -/
theorem flagUpdateRecomputesBoth : Obligations.FlagUpdateRecomputesBoth := by
  refine ⟨fun v p => ⟨zeroFlag_setZeroNegative v p, negativeFlag_setZeroNegative v p, ?_, not_zero_and_negative v p, ?_⟩,
    fun i s t _ h ht => exec_p_of_running h ht⟩
  · exact fun i hi hz hn => getLsbD_setZeroNegative_of_ne hi hz hn v p
  · exact fun _ _ hp => setZeroNegative_of_reservedBits_zero hp v

end Sys2Proof.Machine
end

section
/-! PROOFS. 43_load_accumulator.md: what the eight loads share (R165), each load with the address its mode computes (R166 to
R173), and what a load leaves as it was. -/

namespace Sys2Proof.Machine

/-! ### What the eight loads share -/

theorem loadByte_of_resolve {mode : Mode} {s : State} {addr : Word} (h : resolve mode s = .ok addr) :
    loadByte mode s = memRead s.mem addr := by
  rw [loadByte, h]
  rfl

theorem loadByte_of_resolve_error {mode : Mode} {s : State} {f : Fault} (h : resolve mode s = .error f) :
    loadByte mode s = .error f := by
  rw [loadByte, h]
  rfl

theorem flagsFrom_setZeroNegative (v p : Byte) : FlagsFrom v p (setZeroNegative v p) :=
  ⟨zeroFlag_setZeroNegative v p, negativeFlag_setZeroNegative v p, reservedBits_setZeroNegative v p⟩

/-- The instruction ends the run with the one condition an access can raise (60_exceptions.md R203). -/
def RaisesAddressRange (i : Instr) (s : State) : Prop :=
  ∃ t, exec i s = .next t ∧ t.FaultedBy (.addressRange 0xFFFF#16)

/-- The instruction loads the byte at an address given as a number, where memory has one, and else raises (R165). -/
def LoadsFrom (i : Instr) (s : State) (addr : Nat) : Prop :=
  (addr ≠ 0xFFFF → ∀ v : Byte, v = s.mem.byteAt addr →
    exec i s = .next (s.loaded v (BitVec.ofNat 16 (operandCount i))) ∧ FlagsFrom v s.p (setZeroNegative v s.p)) ∧
  (addr = 0xFFFF → RaisesAddressRange i s)

section Loads

variable {i : Instr} {s : State}

theorem exec_load_ok (hm : modeOf i ≠ .none) {v : Byte} (h : loadByte (modeOf i) s = .ok v) :
    exec i s = .next (s.loaded v (BitVec.ofNat 16 (operandCount i))) := by
  rw [exec_load hm, lda_ok h]

theorem exec_load_error (hm : modeOf i ≠ .none) {f : Fault} (h : loadByte (modeOf i) s = .error f) :
    exec i s = .next (s.raise f) := by
  rw [exec_load hm, lda_error h]

theorem raisesAddressRange_of_resolve_error (hm : modeOf i ≠ .none)
    (h : resolve (modeOf i) s = .error (.addressRange 0xFFFF#16)) : RaisesAddressRange i s :=
  ⟨_, exec_load_error hm (loadByte_of_resolve_error h), rfl, rfl⟩

/-- A load is known by the address its mode resolves to. -/
theorem loadsFrom_of_resolve (hm : modeOf i ≠ .none) {w : Word} {addr : Nat} (h : resolve (modeOf i) s = .ok w)
    (haddr : w.toNat = addr) : LoadsFrom i s addr := by
  have hload := loadByte_of_resolve h
  subst haddr
  rw [LoadsFrom, ne_eq, ← word_eq_iff w 0xFFFF (by decide)]
  constructor
  · rintro hbacked v rfl
    exact ⟨exec_load_ok hm (hload.trans (memRead_backed hbacked)), flagsFrom_setZeroNegative _ _⟩
  · rintro rfl
    exact ⟨_, exec_load_error hm (hload.trans (memRead_unbacked _)), rfl, rfl⟩

/-- A byte of page 0 always exists, so a load whose mode resolves there completes (R167, R168). -/
theorem exec_load_zeroPage (hm : modeOf i ≠ .none) {b v : Byte} {addr : Nat}
    (h : resolve (modeOf i) s = .ok (zext16 b)) (haddr : b.toNat = addr) (hv : v = s.mem.byteAt addr) :
    exec i s = .next (s.loaded v (BitVec.ofNat 16 (operandCount i))) ∧ FlagsFrom v s.p (setZeroNegative v s.p) := by
  obtain ⟨hloads, -⟩ := loadsFrom_of_resolve hm h ((zext16_toNat b).trans haddr)
  exact hloads (by omega) v hv

/-- The two indirect loads differ only in the register `idx` that indexes the pointer byte; the pointer and its
successor wrap in page 0 (R172, R173). -/
theorem loadsFrom_of_pointerWord (hm : modeOf i ≠ .none) {b idx : Byte} {ptr addr : Nat}
    (h : resolve (modeOf i) s = pointerWord s.mem (add8 b idx)) (hptr : ptr = (b.toNat + idx.toNat) % 256)
    (haddr : addr = (s.mem.byteAt ((ptr + 1) % 256)).toNat * 256 + (s.mem.byteAt ptr).toNat) : LoadsFrom i s addr := by
  have hlow : (add8 b idx).toNat = ptr := (add8_toNat b idx).trans hptr.symm
  have hhigh : (add8 (add8 b idx) 1#8).toNat = (ptr + 1) % 256 := by
    rw [add8_toNat, hlow]
    rfl
  refine loadsFrom_of_resolve hm (h.trans (pointerWord_eq _ _)) ?_
  rw [joinBytes_toNat, hlow, hhigh, haddr]

end Loads

/-- Settles O21: the data read is the resolver's address read once; the one condition either can raise is
`loadByte_error`'s. -/
theorem loadFamilyCommonSemantics : Obligations.LoadFamilyCommonSemantics := by
  refine ⟨fun i => by cases i <;> decide, fun i s hm => ⟨fun addr v hr hv => ⟨?_, ?_⟩, fun f hf => ?_⟩⟩
  · exact exec_load_ok hm ((loadByte_of_resolve hr).trans hv)
  · exact reservedBits_setZeroNegative v s.p
  · have hload : loadByte (modeOf i) s = .error f := by
      rcases hf with hr | ⟨addr, hr, hv⟩
      · exact loadByte_of_resolve_error hr
      · exact (loadByte_of_resolve hr).trans hv
    exact ⟨loadByte_error hm hload, exec_load_error hm hload⟩

/-- Settles O30: a load writes `A`, the flags and `pc`, or enters the one fatal condition. -/
theorem loadFrame : Obligations.LoadFrame := by
  intro i s t hm h
  obtain ⟨hy, hmem, hp⟩ := exec_next h
  have hrest : t.x = s.x ∧ ((t.run = s.run ∧ t.cause = s.cause) ∨ t.FaultedBy (.addressRange 0xFFFF#16)) := by
    cases hload : loadByte (modeOf i) s with
    | ok v =>
      obtain rfl := Host.Outcome.next.inj ((exec_load_ok hm hload).symm.trans h)
      exact ⟨rfl, .inl ⟨rfl, rfl⟩⟩
    | error f =>
      obtain rfl := Host.Outcome.next.inj ((exec_load_error hm hload).symm.trans h)
      exact ⟨rfl, .inr ⟨rfl, congrArg Cause.fault (loadByte_error hm hload)⟩⟩
  obtain ⟨hx, hends⟩ := hrest
  exact ⟨hx, hy, hp, fun c => by rw [hmem], hends⟩

/-! ### One operand byte -/

/-- Settles O22: Immediate resolves to `pc`, so its data read is its operand read. -/
theorem loadImmediate : Obligations.LoadImmediate := by
  refine ⟨decodeOpcode_opcodeOf .ldaImm, rfl, fun s hpc imm himm => ?_, fun s hpc => ?_, fun s hrun hpc hb => ?_⟩
  · obtain ⟨hloads, -⟩ := loadsFrom_of_resolve (i := .ldaImm) (s := s) (by decide) rfl rfl
    exact hloads (mt (word_eq_iff s.pc 0xFFFF (by decide)).2 hpc) imm himm
  · have hload : loadByte .immediate s = .error (.addressRange 0xFFFF#16) := by
      rw [loadByte_of_resolve rfl, hpc, memRead_unbacked]
    exact ⟨_, exec_load_error (i := .ldaImm) (by decide) hload, ⟨rfl, rfl⟩, rfl, rfl, hpc⟩
  · exact stepAccesses_decoded hrun hpc (by rw [hb]; exact decodeOpcode_opcodeOf .ldaImm)

/-- Settles O23: the operand byte, zero-extended, is the address. -/
theorem loadZeroPage : Obligations.LoadZeroPage := by
  refine ⟨decodeOpcode_opcodeOf .ldaZp, rfl, fun s hpc zp v hzp hv => ?_, fun s hpc => ?_⟩
  · subst hzp
    exact exec_load_zeroPage (by decide) (resolve_zeroPage (memRead_backed hpc)) (zext16_toNat _).symm hv
  · exact raisesAddressRange_of_resolve_error (by decide) (resolve_unbacked (by decide) (by decide) hpc)

/-- Settles O24: the address is the 8-bit sum, zero-extended. -/
theorem loadZeroPageX : Obligations.LoadZeroPageX := by
  refine ⟨decodeOpcode_opcodeOf .ldaZpX, rfl, fun s hpc zp v hzp hv => ?_, fun s hpc => ?_⟩
  · subst hzp
    exact exec_load_zeroPage (by decide) (resolve_zeroPageX (memRead_backed hpc)) (add8_toNat _ _) hv
  · exact raisesAddressRange_of_resolve_error (by decide) (resolve_unbacked (by decide) (by decide) hpc)

/-! ### Two operand bytes -/

/-- Settles O25: the address is the little-endian word at `pc`. -/
theorem loadAbsolute : Obligations.LoadAbsolute := by
  refine ⟨decodeOpcode_opcodeOf .ldaAbs, rfl, fun s hpc addr haddr => ?_, fun s hpc => ?_⟩
  · subst haddr
    exact loadsFrom_of_resolve (by decide) (read16_ok (Nat.succ_lt_succ hpc)) (joinBytes_toNat _ _)
  · exact raisesAddressRange_of_resolve_error (by decide) (resolve_twoBytes_unbacked rfl hpc)

/-- The word at `pc` plus an index byte, as the number the two Absolute-indexed statements name (R170, R171). -/
theorem add16_joinBytes_zext16_toNat (hi lo idx : Byte) :
    (add16 (joinBytes hi lo) (zext16 idx)).toNat = (hi.toNat * 256 + lo.toNat + idx.toNat) % 65536 := by
  rw [add16_zext16_toNat, joinBytes_toNat]
  rfl

/-- Settles O26: the 16-bit sum of the word at `pc` and `X` is the address. -/
theorem loadAbsoluteX : Obligations.LoadAbsoluteX := by
  refine ⟨decodeOpcode_opcodeOf .ldaAbsX, rfl, fun s hpc addr haddr => ?_, fun s hpc => ?_⟩
  · subst haddr
    exact loadsFrom_of_resolve (by decide) (resolve_absoluteX (read16_ok (Nat.succ_lt_succ hpc)))
      (add16_joinBytes_zext16_toNat _ _ _)
  · exact raisesAddressRange_of_resolve_error (by decide) (resolve_twoBytes_unbacked rfl hpc)

/-- Settles O27: the 16-bit sum of the word at `pc` and `Y` is the address. -/
theorem loadAbsoluteY : Obligations.LoadAbsoluteY := by
  refine ⟨decodeOpcode_opcodeOf .ldaAbsY, rfl, fun s hpc addr haddr => ?_, fun s hpc => ?_⟩
  · subst haddr
    exact loadsFrom_of_resolve (by decide) (resolve_absoluteY (read16_ok (Nat.succ_lt_succ hpc)))
      (add16_joinBytes_zext16_toNat _ _ _)
  · exact raisesAddressRange_of_resolve_error (by decide) (resolve_twoBytes_unbacked rfl hpc)

/-! ### Pointers in the zero page -/

/-- Settles O28: `X` indexes the pointer byte. -/
theorem loadIndirectX : Obligations.LoadIndirectX := by
  refine ⟨decodeOpcode_opcodeOf .ldaIndX, rfl, fun s hpc ptr addr hptr haddr => ?_, fun s hpc => ?_⟩
  · exact loadsFrom_of_pointerWord (by decide) (resolve_indirectX (memRead_backed hpc)) hptr haddr
  · exact raisesAddressRange_of_resolve_error (by decide) (resolve_unbacked (by decide) (by decide) hpc)

/-- Settles O29: `Y` indexes the pointer byte, as `X` does in Indirect-X, and the target is the pointer's word. -/
theorem loadIndirectY : Obligations.LoadIndirectY := by
  refine ⟨decodeOpcode_opcodeOf .ldaIndY, rfl, fun s hpc ptr addr hptr haddr => ?_, fun s hpc => ?_⟩
  · exact loadsFrom_of_pointerWord (by decide) (resolve_indirectY (memRead_backed hpc)) hptr haddr
  · exact raisesAddressRange_of_resolve_error (by decide) (resolve_unbacked (by decide) (by decide) hpc)

end Sys2Proof.Machine
end

section
/-! PROOFS. 44_transfer_increment.md: the two instructions that write `X` (R180, R181), and what these and terminate (R190)
leave as it was. -/

namespace Sys2Proof.Machine

/-! ### What the instructions without an operand answer -/

theorem exec_tax (s : State) : exec .tax s = .next (s.writeX s.a) := rfl

theorem exec_inx (s : State) : exec .inx s = .next (s.writeX (add8 s.x 1#8)) := rfl

theorem exec_brk (s : State) : exec .brk s = .next s.terminate := rfl

/-- TAX and INX differ only in the byte they write to `X`. -/
theorem exec_eq_writeX {i : Instr} (hi : i = .tax ∨ i = .inx) (s : State) : ∃ v, exec i s = .next (s.writeX v) := by
  rcases hi with rfl | rfl
  · exact ⟨s.a, exec_tax s⟩
  · exact ⟨add8 s.x 1#8, exec_inx s⟩

/-! ### The flags of an incremented byte, from the byte before -/

theorem add8_one_eq_zero_iff (v : Byte) : add8 v 1#8 = 0x00#8 ↔ v = 0xFF#8 := by
  rw [← BitVec.toNat_inj, ← BitVec.toNat_inj, add8_toNat]
  simp only [BitVec.toNat_ofNat]
  omega

/-- The sum has bit 7 set from 0x7F on, and 0xFF wraps to 0x00. -/
theorem bit7_add8_one (v : Byte) : bit7 (add8 v 1#8) = decide (0x7F ≤ v.toNat ∧ v.toNat ≤ 0xFE) := by
  rw [bit7_eq_decide, decide_eq_decide, add8_toNat]
  simp only [BitVec.toNat_ofNat]
  omega

/-! ### The statements -/

/-- Settles O31: the handler writes `X` with the flags of the byte written. -/
theorem transferAccumulatorToX : Obligations.TransferAccumulatorToX :=
  ⟨decodeOpcode_opcodeOf .tax, rfl, fun s => ⟨exec_tax s, flagsFrom_setZeroNegative s.a s.p⟩⟩

/-- Settles O32: the flags are those of the new `X`, stated on the old one by the two lemmas on the incremented byte. -/
theorem incrementX : Obligations.IncrementX := by
  refine ⟨decodeOpcode_opcodeOf .inx, rfl, fun s => ⟨_, exec_inx s, rfl, add8_toNat s.x 1#8, ?_, ?_, ?_⟩⟩
  · rw [State.writeX_p, zeroFlag_setZeroNegative, decide_eq_decide]
    exact add8_one_eq_zero_iff s.x
  · rw [State.writeX_p, negativeFlag_setZeroNegative]
    exact bit7_add8_one s.x
  · exact reservedBits_setZeroNegative _ s.p

/-- Settles O33: one write to `X` with its flags for TAX and INX, the halt alone for BRK. -/
theorem registerInstructionFrames : Obligations.RegisterInstructionFrames := by
  constructor
  · intro i s t hi h
    obtain ⟨v, hv⟩ := exec_eq_writeX hi s
    obtain rfl := Host.Outcome.next.inj (hv.symm.trans h)
    exact ⟨rfl, rfl, rfl, rfl, rfl, reservedBits_setZeroNegative v s.p, fun _ => rfl⟩
  · intro s t h
    obtain rfl := Host.Outcome.next.inj ((exec_brk s).symm.trans h)
    exact ⟨rfl, rfl, rfl, rfl, rfl, fun _ => rfl⟩

end Sys2Proof.Machine
end

section
/-! PROOFS. 45_terminate.md: the opcode byte 0x00 halts the machine with cause Terminated (R190). -/

namespace Sys2Proof.Machine

/-- Settles O34: BRK's handler is the halt alone, and a step at its opcode byte is that handler after the advance past
the byte (D11). -/
theorem terminateHalts : Obligations.TerminateHalts := by
  refine ⟨exec_brk, fun s hrun hpc hb => ?_⟩
  calc step s = exec .brk (s.advance 1#16) := step_decoded hrun hpc hb (decodeOpcode_opcodeOf .brk)
    _ = .next (s.advance 1#16).terminate := exec_brk _

end Sys2Proof.Machine
end

section
/-! PROOFS. 60_exceptions.md: the conditions a run can end with (R200), the three points that raise AddressRange (R203), the
entry of a fatal condition (R205), and what a faulting step has written (R206, R207). -/

namespace Sys2Proof.Machine

/-! ### The entry of a fatal condition -/

/-- Settles O39: the entry writes run and cause, and no other field. -/
theorem fatalEntryRecordsAndStops : Obligations.FatalEntryRecordsAndStops :=
  fun _ _ => ⟨⟨rfl, rfl⟩, rfl, rfl, rfl, rfl, rfl, rfl⟩

/-! ### What a faulting step has written -/

/-- A Running machine that an instruction faults has had the entry of that condition and nothing else: termination has
another cause, and a register write or a load that completes stays Running. -/
theorem exec_faulted {i : Instr} {s t : State} {f : Fault} (hrun : s.run = .running) (h : exec i s = .next t)
    (hf : t.FaultedBy f) : t = s.raise f := by
  obtain ⟨hhalted, hcause⟩ := hf
  rcases exec_cases i s with ⟨-, he⟩ | ⟨-, he⟩ | ⟨-, he⟩ | ⟨-, v, -, he⟩ | ⟨-, -, he⟩ <;> rw [he] at h <;> cases h
  · cases hcause
  · cases hrun.symm.trans hhalted
  · cases hrun.symm.trans hhalted
  · cases hrun.symm.trans hhalted
  · cases hcause
    rfl

/-- A step that faults has entered the condition before the generic advance of `pc`, where the fetch raised, or right
after it. -/
theorem step_faulted {s t : State} {f : Fault} (hrun : s.run = .running) (h : step s = .next t) (hf : t.FaultedBy f) :
    (s.pc = 0xFFFF#16 ∧ t = s.raise f) ∨ (s.pc ≠ 0xFFFF#16 ∧ t = (s.advance 1#16).raise f) := by
  have hcause : t.cause = .fault f := hf.2
  rcases step_running_cases hrun with ⟨hpc, hs⟩ | ⟨hpc, -, hs⟩ | ⟨hpc, i, -, hs⟩ <;> rw [hs] at h
  · cases h
    cases hcause
    exact .inl ⟨hpc, rfl⟩
  · cases h
    cases hcause
    exact .inr ⟨hpc, rfl⟩
  · exact .inr ⟨hpc, exec_faulted (s := s.advance 1#16) hrun h hf⟩

/-- Settles O44: the entry of a condition and the generic advance write none of the registers named. -/
theorem faultsArePrecise : Obligations.FaultsArePrecise := by
  intro s t f hrun h hf
  rcases step_faulted hrun h hf with ⟨hpc, rfl⟩ | ⟨hpc, rfl⟩
  · exact ⟨rfl, rfl, rfl, rfl, rfl, fun _ => rfl, fun hne => absurd hpc hne⟩
  · exact ⟨rfl, rfl, rfl, rfl, rfl, fun htop => absurd htop hpc, fun _ => rfl⟩

/-! ### The three points that raise AddressRange -/

/-- A load raises where its resolution does, or where the resolved address is 0xFFFF (43_load_accumulator.md R165). -/
theorem loadByte_raises_iff_resolve (mode : Mode) (s : State) :
    loadByte mode s = .error (.addressRange 0xFFFF#16) ↔
      resolve mode s = .error (.addressRange 0xFFFF#16) ∨ resolve mode s = .ok 0xFFFF#16 := by
  rcases loadByte_cases mode s with ⟨addr, hr, hne, hl⟩ | ⟨hr, hl⟩ | ⟨g, hr, hl⟩ <;> rw [hr, hl]
  · simp [hne]
  · simp
  · simp

/-- The points at which a load raises, with `pc` at its first operand byte: an operand byte at 0xFFFF, or the data byte.
In Immediate the operand byte is the data byte. -/
theorem loadByte_raises_iff {mode : Mode} {s : State} (hm : mode ≠ .none) :
    loadByte mode s = .error (.addressRange 0xFFFF#16) ↔
      s.pc = 0xFFFF#16 ∨ (mode.operandBytes = 2 ∧ s.pc = 0xFFFE#16) ∨ resolve mode s = .ok 0xFFFF#16 := by
  rw [loadByte_raises_iff_resolve, resolve_raises_iff hm]
  have himm : mode = .immediate → s.pc = 0xFFFF#16 → resolve mode s = .ok 0xFFFF#16 := by
    rintro rfl hpc
    rw [resolve, hpc]
  tauto

/-- From a state without cause, an instruction records AddressRange exactly where it is a load that raises. -/
theorem exec_raises_iff {i : Instr} {s t : State} (hcause : s.cause = .none) (h : exec i s = .next t) :
    t.cause = .fault (.addressRange 0xFFFF#16) ↔
      modeOf i ≠ .none ∧ loadByte (modeOf i) s = .error (.addressRange 0xFFFF#16) := by
  rcases exec_cases i s with ⟨rfl, he⟩ | ⟨rfl, he⟩ | ⟨rfl, he⟩ | ⟨hm, v, hv, he⟩ | ⟨hm, hl, he⟩ <;> rw [he] at h <;> cases h
  · simp [modeOf]
  · simp [modeOf, hcause]
  · simp [modeOf, hcause]
  · simp [hv, hcause]
  · simp [hm, hl]

/-- The generic advance moves `pc` to a successor exactly from its predecessor. -/
theorem add16_one_inj {v w : Word} : add16 v 1#16 = add16 w 1#16 ↔ v = w := BitVec.add_left_inj 1#16

/-- The points of `loadByte_raises_iff`, seen from the `pc` of the opcode byte. -/
theorem loadByte_advance_raises_iff {mode : Mode} {s : State} (hm : mode ≠ .none) :
    loadByte mode (s.advance 1#16) = .error (.addressRange 0xFFFF#16) ↔
      s.pc = 0xFFFE#16 ∨ (mode.operandBytes = 2 ∧ s.pc = 0xFFFD#16) ∨
        resolve mode (s.advance 1#16) = .ok 0xFFFF#16 := by
  have htop : (s.advance 1#16).pc = 0xFFFF#16 ↔ s.pc = 0xFFFE#16 := add16_one_inj (w := 0xFFFE#16)
  have hfffe : (s.advance 1#16).pc = 0xFFFE#16 ↔ s.pc = 0xFFFD#16 := add16_one_inj (w := 0xFFFD#16)
  rw [loadByte_raises_iff hm, htop, hfffe]

/-- Settles O42: the fetch raises at 0xFFFF alone, a byte without handler records another condition, and a decoded
instruction raises where its load does. -/
theorem addressRangeExactlyAtThreePoints : Obligations.AddressRangeExactlyAtThreePoints := by
  intro s t hrun hcause h
  rcases step_running_cases hrun with ⟨hpc, hs⟩ | ⟨hpc, hd, hs⟩ | ⟨hpc, i, hd, hs⟩ <;> rw [hs] at h
  · cases h
    simp [hpc]
  · cases h
    simp [hpc, hd]
  · rw [exec_raises_iff (s := s.advance 1#16) hcause h]
    simp only [hpc, hd, false_or, Option.some.injEq, exists_eq_left']
    exact and_congr_right loadByte_advance_raises_iff

/-! ### The end of a run -/

/-- A step from a machine that runs on or has ended leaves one that does: a Halted machine's step is the identity, and
a Running one is without cause. -/
theorem State.RunsOnOrEnds.step {s t : State} (h : s.RunsOnOrEnds) (ht : step s = .next t) : t.RunsOnOrEnds := by
  have hidle (hrun : s.run = .halted) : t.RunsOnOrEnds := by
    rw [step_halted hrun] at ht
    cases ht
    exact h
  rcases h with ⟨hrun, hcause⟩ | ⟨hrun, -⟩ | ⟨f, ⟨hrun, -⟩, -⟩
  · obtain ⟨t', ht', hends⟩ := step_runsOnOrEnds hrun hcause
    obtain rfl : t' = t := Host.Outcome.next.inj (ht'.symm.trans ht)
    exact hends
  · exact hidle hrun
  · exact hidle hrun

/-- What is Halted does not run on. -/
theorem State.RunsOnOrEnds.ends {t : State} (h : t.RunsOnOrEnds) (hhalted : t.run = .halted) :
    t.Final ∨ ∃ f, t.FaultedBy f ∧ f.ofStep = true := by
  rcases h with ⟨hrun, -⟩ | hends
  · cases hrun.symm.trans hhalted
  · exact hends

theorem command_run {s : State} (h : s.run = .halted) :
    command .run s = (.done, runLoop Config.runBound s.beginRun) := by
  simp only [command, h, hostRun]

/-- Settles O51: the loop's bound reaches the end of memory from every `pc`, so the run is Halted at its end, and each
step of it ends in one of the three ways of 00_scope.md R14 and keeps memory and `Y`. -/
theorem runComesBackHalted : Obligations.RunComesBackHalted := by
  intro s hhalted
  have hends : (runLoop Config.runBound s.beginRun).RunsOnOrEnds :=
    runLoop_induct (fun _ _ h ht => h.step ht) _ _ (State.runsOnOrEnds_of_running rfl rfl)
  have hkeeps : (runLoop Config.runBound s.beginRun).mem = s.mem ∧ (runLoop Config.runBound s.beginRun).y = s.y :=
    runLoop_induct (Q := fun t => t.mem = s.mem ∧ t.y = s.y)
      (fun _ _ ⟨hmem, hy⟩ ht => ⟨(step_mem ht).trans hmem, (step_y ht).trans hy⟩) _ _ ⟨rfl, rfl⟩
  have hhalts : (runLoop Config.runBound s.beginRun).run = .halted := runLoop_halts (Nat.le_add_left _ _)
  exact ⟨_, command_run hhalted, hends.ends hhalts, hkeeps⟩

end Sys2Proof.Machine
end

section
/-! PROOFS. 20_memory.md, 10_state.md: the canonical form the model holds memory in is one form (log entry 16). -/

namespace Sys2Proof.Machine

theorem Memory.wfFrom_cons_iff {lo a : Nat} {v : Byte} {m : Memory} :
    Memory.wfFrom lo ((a, v) :: m) = true ↔
      lo ≤ a ∧ a < Config.memSize ∧ v ≠ Config.memInit a ∧ m.wfFrom (a + 1) = true := by
  simp only [Memory.wfFrom, Bool.and_eq_true, decide_eq_true_eq, and_assoc]

theorem Memory.byteAt_head (a : Nat) (v : Byte) (m : Memory) : Memory.byteAt ((a, v) :: m) a = v := if_pos rfl

theorem Memory.byteAt_tail {a c : Nat} (h : c ≠ a) (v : Byte) (m : Memory) :
    Memory.byteAt ((a, v) :: m) c = m.byteAt c := if_neg h

/-- A byte a canonical memory lists differs from the unlisted byte, so a memory that reads it alike cannot begin past
its address. -/
theorem Memory.le_of_byteAt_eq {m : Memory} {lo a : Nat} {v : Byte} (hv : v ≠ Config.memInit a)
    (hm : m.wfFrom lo = true) (heq : m.byteAt a = v) : lo ≤ a := by
  by_contra hlt
  exact hv (heq.symm.trans (Memory.byteAt_of_lt m hm (Nat.lt_of_not_le hlt)))

/-- Canonical memories from an address on that read alike are equal, cell by cell: their first cells are at one address
and hold one byte, and past that address the rest of each is all that is read. -/
theorem Memory.eq_of_byteAt_eq : ∀ {m m' : Memory} {lo lo' : Nat}, m.wfFrom lo = true → m'.wfFrom lo' = true →
    (∀ c < Config.memSize, m.byteAt c = m'.byteAt c) → m = m'
  | [], [], _, _, _, _, _ => rfl
  | [], (b, w) :: m', _, _, _, hm', h => by
    obtain ⟨-, hb, hw, -⟩ := Memory.wfFrom_cons_iff.1 hm'
    exact absurd ((Memory.byteAt_head b w m').symm.trans (h b hb).symm) hw
  | (a, v) :: m, [], _, _, hm, _, h => by
    obtain ⟨-, ha, hv, -⟩ := Memory.wfFrom_cons_iff.1 hm
    exact absurd ((Memory.byteAt_head a v m).symm.trans (h a ha)) hv
  | (a, v) :: m, (b, w) :: m', _, _, hm, hm', h => by
    obtain ⟨-, ha, hv, htail⟩ := Memory.wfFrom_cons_iff.1 hm
    obtain ⟨-, hb, hw, htail'⟩ := Memory.wfFrom_cons_iff.1 hm'
    have hba : b ≤ a := Memory.le_of_byteAt_eq hv (Memory.wfFrom_cons_iff.2 ⟨le_rfl, hb, hw, htail'⟩)
      ((h a ha).symm.trans (Memory.byteAt_head a v m))
    have hab : a ≤ b := Memory.le_of_byteAt_eq hw (Memory.wfFrom_cons_iff.2 ⟨le_rfl, ha, hv, htail⟩)
      ((h b hb).trans (Memory.byteAt_head b w m'))
    obtain rfl : a = b := Nat.le_antisymm hab hba
    obtain rfl : v = w := by simpa only [Memory.byteAt_head] using h a ha
    have hrest : m = m' := Memory.eq_of_byteAt_eq htail htail' fun c hc => by
      by_cases hca : c = a
      · subst hca
        rw [Memory.byteAt_of_lt m htail (Nat.lt_succ_self c), Memory.byteAt_of_lt m' htail' (Nat.lt_succ_self c)]
      · simpa only [Memory.byteAt_tail hca] using h c hc
    rw [hrest]

/-- Settles O7: the canonical form from address 0 on. -/
theorem memoriesThatReadAlikeAreEqual : Obligations.MemoriesThatReadAlikeAreEqual :=
  fun _ _ hm hm' h => Memory.eq_of_byteAt_eq hm hm' h

end Sys2Proof.Machine
end

section
/-! PROOFS. 70_reset_and_hazards.md: the host's `reset`, `load` and `load_and_run` (R230 to R237), when the host has a move
(R239, R244), and the successful end of a run (R243). -/

namespace Sys2Proof.Machine

/-! ### When the host has a move -/

/-- Settles O59: the dispatch of the commands asks for the run state first. -/
theorem noCommandWhileRunning : Obligations.NoCommandWhileRunning := by
  intro c s hrun
  simp only [command, hrun]

/-! ### Reset -/

/-- Settles O54: both bytes of the reset vector exist, so the command is always carried out. -/
theorem resetCommand : Obligations.ResetCommand :=
  fun s hrun => (command_reset hrun).trans (hostReset_eq s)

/-! ### Load -/

theorem command_load {s : State} (h : s.run = .halted) (image : List Byte) :
    command (.load image) s = hostLoad image s := by
  simp only [command, h]

/-- The memory an accepted `load` leaves: the image from `ORIGIN` on, then the reset vector (R234). -/
def Memory.loadImage (m : Memory) (image : List Byte) : Memory :=
  ((m.storeBytes 0x8000 image).store 0xFFFC 0x00#8).store 0xFFFD 0x80#8

theorem Memory.byteAt_loadImage_vector {m : Memory} (hm : m.wf = true) (image : List Byte) :
    (m.loadImage image).byteAt 0xFFFC = 0x00#8 ∧ (m.loadImage image).byteAt 0xFFFD = 0x80#8 := by
  have hbytes : (m.storeBytes 0x8000 image).wf = true := Memory.storeBytes_wf image _ hm
  have hlow : ((m.storeBytes 0x8000 image).store 0xFFFC 0x00#8).wf = true := Memory.store_wf hbytes (by decide)
  refine ⟨?_, Memory.byteAt_store_same hlow _ _⟩
  calc (m.loadImage image).byteAt 0xFFFC
      = ((m.storeBytes 0x8000 image).store 0xFFFC 0x00#8).byteAt 0xFFFC := Memory.byteAt_store_other _ _ (by decide)
    _ = 0x00#8 := Memory.byteAt_store_same hbytes _ _

theorem Memory.byteAt_loadImage_of_ne_vector (m : Memory) (image : List Byte) {c : Nat} (hlow : c ≠ 0xFFFC)
    (hhigh : c ≠ 0xFFFD) : (m.loadImage image).byteAt c = (m.storeBytes 0x8000 image).byteAt c :=
  (Memory.byteAt_store_other _ _ hhigh).trans (Memory.byteAt_store_other _ _ hlow)

theorem hostLoad_accepted {image : List Byte} (h : image.length ≤ 32767) (s : State) :
    hostLoad image s = (.done, { s with mem := s.mem.loadImage image }) := by
  rcases hostLoad_cases image s with ⟨hlong, -⟩ | ⟨-, he⟩
  · exact absurd h (Nat.not_le.2 hlong)
  · exact he

theorem hostLoad_oversized {image : List Byte} (h : 32767 < image.length) (s : State) :
    hostLoad image s = (.rejected (.oversizedLoad image.length), s) := by
  rcases hostLoad_cases image s with ⟨-, he⟩ | ⟨hshort, -⟩
  · exact he
  · exact absurd h (Nat.not_lt.2 hshort)

/-- Settles O56: the vector is stored last, an accepted image ends below `MEM_SIZE`, and a sequence of stores changes
only the addresses it covers. -/
theorem loadCommand : Obligations.LoadCommand := by
  intro s image hrun hm
  rw [command_load hrun]
  refine ⟨fun hlen => ?_, fun hlen => hostLoad_oversized hlen s⟩
  obtain ⟨hlow, hhigh⟩ := Memory.byteAt_loadImage_vector hm image
  refine ⟨s.mem.loadImage image, hostLoad_accepted hlen s, hlow, hhigh, fun i hi h1 h2 => ?_, fun c h1 h2 hc => ?_⟩
  · rw [Memory.byteAt_loadImage_of_ne_vector _ _ (by omega) (by omega)]
    have hbacked : 0x8000 + i < Config.memSize := by
      simp only [Config.memSize]
      omega
    exact Memory.byteAt_storeBytes_at image _ hi hm hbacked
  · rw [Memory.byteAt_loadImage_of_ne_vector _ _ h1 h2]
    rcases hc with hbelow | habove
    · exact Memory.byteAt_storeBytes_below image _ hbelow
    · exact Memory.byteAt_storeBytes_above image _ habove

/-! ### Load and run -/

theorem command_loadAndRun {s : State} (h : s.run = .halted) (image : List Byte) :
    command (.loadAndRun image) s = hostLoadAndRun image s := by
  simp only [command, h]

/-- `reset` never rejects, so after an accepted `load` the three operations are one after another (R237). -/
theorem hostLoadAndRun_of_done {image : List Byte} {s t : State} (h : hostLoad image s = (.done, t)) :
    hostLoadAndRun image s = hostRun (hostReset t).2 := by
  simp only [hostLoadAndRun, h, hostReset_eq]

theorem hostLoadAndRun_of_rejected {image : List Byte} {s t : State} {f : Fault}
    (h : hostLoad image s = (.rejected f, t)) : hostLoadAndRun image s = (.rejected f, t) := by
  simp only [hostLoadAndRun, h]

/-- After an accepted `load`, `reset` finds `ORIGIN` in the vector (R232). -/
theorem hostReset_loadImage {s : State} (hm : s.mem.wf = true) (image : List Byte) :
    (hostReset { s with mem := s.mem.loadImage image }).2 =
      { s with a := 0x00#8, x := 0x00#8, p := 0x00#8, pc := 0x8000#16, mem := s.mem.loadImage image } := by
  obtain ⟨hlow, hhigh⟩ := Memory.byteAt_loadImage_vector hm image
  rw [hostReset_eq, hlow, hhigh]
  rfl

/-- Settles O57: an accepted image is followed by `reset` and `run`, a rejected one by nothing. -/
theorem loadAndRunStartsAtTheOrigin : Obligations.LoadAndRunStartsAtTheOrigin := by
  intro s image hrun hm
  rw [command_load hrun, command_loadAndRun hrun]
  refine ⟨fun hlen => ⟨s.mem.loadImage image, ?_, ?_⟩,
    fun hlen => hostLoadAndRun_of_rejected (hostLoad_oversized hlen s)⟩
  · rw [hostLoad_accepted hlen]
  · rw [hostLoadAndRun_of_done (hostLoad_accepted hlen s), hostReset_loadImage hm]
    refine (command_run ?_).symm
    exact hrun

/-! ### The successful end of a run -/

/-- Of the instructions BRK alone ends a run successfully: the others run on or record a fatal condition. -/
theorem exec_final_iff {i : Instr} {s t : State} (hrun : s.run = .running) (h : exec i s = .next t) :
    t.Final ↔ i = .brk := by
  rcases exec_cases i s with ⟨rfl, he⟩ | ⟨rfl, he⟩ | ⟨rfl, he⟩ | ⟨hm, v, -, he⟩ | ⟨hm, -, he⟩ <;> rw [he] at h <;> cases h
  · exact iff_of_true ⟨rfl, rfl⟩ rfl
  · simp [State.Final, hrun]
  · simp [State.Final, hrun]
  · have hi : i ≠ .brk := ne_of_apply_ne modeOf hm
    simp [State.Final, hrun, hi]
  · have hi : i ≠ .brk := ne_of_apply_ne modeOf hm
    simp [State.Final, hi]

/-- Settles O41: a fetch or a dispatch that raises records a fatal condition, and the byte 0x00 is BRK's alone. -/
theorem onlyTheZeroByteTerminates : Obligations.OnlyTheZeroByteTerminates := by
  intro s t hrun _ h
  rcases step_running_cases hrun with ⟨hpc, hs⟩ | ⟨hpc, hd, hs⟩ | ⟨hpc, i, hd, hs⟩ <;> rw [hs] at h
  · cases h
    simp [State.Final, hpc]
  · have hb : s.mem.byteAt s.pc.toNat ≠ 0x00#8 := decodeOpcode_eq_none_iff.1 hd .brk
    cases h
    simp [State.Final, hb]
  · have hbyte : s.mem.byteAt s.pc.toNat = opcodeOf i := opcodeOf_of_decodeOpcode hd
    have hzero : opcodeOf i = 0x00#8 ↔ i = .brk := opcodeOf_injective.eq_iff' rfl
    rw [exec_final_iff (s := s.advance 1#16) hrun h, hbyte, hzero, and_iff_right hpc]

end Sys2Proof.Machine
end
